-- ==== Sys2Proof/Word.lean ====
section
/-! DEFINITION. The word types of the machine: registers and memory cells are 16-bit words (00_scope.md R9),
console characters and file bytes are 8-bit (45_trap_reserved.md R103). -/

namespace Sys2Proof

/-- A 16-bit word, the content of a register or of one memory cell, and an address (R9, R34). -/
abbrev Word := BitVec 16

/-- A byte of the console or of an image file (R103, R131). -/
abbrev Byte := BitVec 8

end Sys2Proof
end

