-- ==== Sys2Proof/Machine/Units.lean ====
section
/-! DEFINITION. The pure datapath units of 40_datapath_units.md: the sign-extension unit (R68, R69), the ALU (R73)
and the address adder (R75). -/

namespace Sys2Proof.Machine

/-- The sign-extension contract of R68 on an arbitrary input: bit n-1 set forces every bit from n upward to 1, and
otherwise the input is returned unchanged (also where bits above the field are set, R69). -/
def sextContract (n : Nat) (f : Word) : Word :=
  if f.getLsbD (n - 1) then f ||| (0xFFFF#16 <<< n) else f

/-- The sign-extension unit of R68, refused (none) outside its domain 1..16 (R69). -/
def sextUnit (n : Nat) (f : Word) : Option Word :=
  if 1 ≤ n ∧ n ≤ 16 then some (sextContract n f) else none

/-- The three ALU functions of R73. -/
inductive AluOp where
  | add
  | and
  | not
  deriving DecidableEq, Repr

/-- The ALU (R73): no carry, overflow or other status output (R74). NOT does not use its second input. -/
def alu : AluOp → Word → Word → Word
  | .add, a, b => a + b
  | .and, a, b => a &&& b
  | .not, a, _ => ~~~a

/-- The address adder (R75): addition modulo 65536. -/
def addressAdder (base off : Word) : Word := base + off

end Sys2Proof.Machine
end

