-- ==== Sys2Proof/Syntax.lean ====
section
/-! DEFINITION. The instruction syntax: one constructor for each row of spec/opcode_table.json, its operands the
fields of the row (30_encoding.md R53 to R57, R67). -/

namespace Sys2Proof

/-- The eight general registers R0..R7 (10_state.md R15). -/
inductive Reg where
  | r0 | r1 | r2 | r3 | r4 | r5 | r6 | r7
  deriving DecidableEq, Repr

/-- The sixteen opcodes the decoder routes to (R57, R61). JSR stands for JSR/JSRR, which share one opcode (R54). -/
inductive Opcode where
  | br | add | ld | st | jsr | and | ldr | str | rti | not | ldi | sti | jmp | res | lea | trap
  deriving DecidableEq, Repr

/-- One constructor per row of the opcode table. Where a row names words of a more general row (NOP of BR, RET of
JMP, the six service calls of TRAP), the decoder gives the special row's constructor and WellFormed.lean keeps the
general one off those words. Immediates and offsets are the raw fields; RTI and RES carry the ignored bits [11:0],
because the fault they raise records the instruction word (R112, R113). -/
inductive Instr where
  /-- BR (R82): `0000 nzpi iiii iiii`. -/
  | br (cond : BitVec 3) (off9 : BitVec 9)
  /-- ADD, register form (R84): `0001 ddds ss0- -ttt`. -/
  | addReg (dr sr1 sr2 : Reg)
  /-- ADD, immediate form (R85): `0001 ddds ss1i iiii`. -/
  | addImm (dr sr1 : Reg) (imm5 : BitVec 5)
  /-- LD (R91): `0010 dddi iiii iiii`. -/
  | ld (dr : Reg) (off9 : BitVec 9)
  /-- ST (R95): `0011 sssi iiii iiii`. -/
  | st (sr : Reg) (off9 : BitVec 9)
  /-- JSRR (R100): `0100 0--b bb-- ----`. -/
  | jsrr (base : Reg)
  /-- JSR (R99): `0100 1iii iiii iiii`. -/
  | jsr (off11 : BitVec 11)
  /-- AND, register form (R86): `0101 ddds ss0- -ttt`. -/
  | andReg (dr sr1 sr2 : Reg)
  /-- AND, immediate form (R87): `0101 ddds ss1i iiii`. -/
  | andImm (dr sr1 : Reg) (imm5 : BitVec 5)
  /-- LDR (R93): `0110 ddds ssii iiii`. -/
  | ldr (dr base : Reg) (off6 : BitVec 6)
  /-- STR (R97): `0111 sssb bbii iiii`. -/
  | str (sr base : Reg) (off6 : BitVec 6)
  /-- RTI (R112): `1000 ---- ---- ----`. -/
  | rti (low : BitVec 12)
  /-- NOT (R89): `1001 ddds ss-- ----`. -/
  | not (dr sr : Reg)
  /-- LDI (R92): `1010 dddi iiii iiii`. -/
  | ldi (dr : Reg) (off9 : BitVec 9)
  /-- STI (R96): `1011 sssi iiii iiii`. -/
  | sti (sr : Reg) (off9 : BitVec 9)
  /-- JMP (R98): `1100 ---b bb-- ----`. -/
  | jmp (base : Reg)
  /-- RES (R113): `1101 ---- ---- ----`. -/
  | res (low : BitVec 12)
  /-- LEA (R94): `1110 dddi iiii iiii`. -/
  | lea (dr : Reg) (off9 : BitVec 9)
  /-- TRAP (R105): `1111 ---- vvvv vvvv`. -/
  | trap (vector : BitVec 8)
  /-- GETC (R106): TRAP x20. -/
  | getc
  /-- OUT (R107): TRAP x21. -/
  | out
  /-- PUTS (R108): TRAP x22. -/
  | puts
  /-- IN (R109): TRAP x23. -/
  | inChar
  /-- PUTSP (R110): TRAP x24. -/
  | putsp
  /-- HALT (R111): TRAP x25. -/
  | halt
  /-- RET (R67, R98): JMP R7. -/
  | ret
  /-- NOP (R65, R67): BR with cond = 0b000; off9 has no effect. -/
  | nop (off9 : BitVec 9)
  deriving DecidableEq, Repr

end Sys2Proof
end

