-- ==== Sys2Proof/WellFormed.lean ====
section
/-! DEFINITION. Which instruction terms the decoder gives: the general rows BR, JMP and TRAP leave the words that
the table's special rows name (NOP, RET and the six service calls, 30_encoding.md R67) to those rows. The meaning
of an ill-formed term is the special row's, so nothing is lost (assumption log 6). -/

namespace Sys2Proof

/-- The vectors 0x20..0x25 of the six service routines (30_encoding.md R63). -/
def serviceVector (v : BitVec 8) : Bool :=
  0x20#8 ≤ v && v ≤ 0x25#8

/-- `i` is the term that decoding gives for its words. -/
def Instr.wf : Instr → Bool
  | .br cond _ => cond != 0#3
  | .jmp base => base != .r7
  | .trap v => !serviceVector v
  | .addReg _ _ _ | .addImm _ _ _ | .ld _ _ | .st _ _ | .jsrr _ | .jsr _ | .andReg _ _ _ | .andImm _ _ _
  | .ldr _ _ _ | .str _ _ _ | .rti _ | .not _ _ | .ldi _ _ | .sti _ _ | .res _ | .lea _ _
  | .getc | .out | .puts | .inChar | .putsp | .halt | .ret | .nop _ => true

end Sys2Proof
end

