-- ==== Sys2Proof/Decode.lean ====
section
/-! DEFINITION. The decoder (30_encoding.md §5) and, after it, the encoder, both written from the formats of R53 and
the opcode map of R57. The decoder is total: every one of the 65536 words is an instruction (R60), so nothing is
rejected here. -/

namespace Sys2Proof

/-! ## The opcode map and the register fields -/

/-- OPCODE_MAP (R57, D1): the opcode of each value of bits [15:12], in order from 0x0. Assumption log 1. -/
def opcodeMap : List Opcode :=
  [.br, .add, .ld, .st, .jsr, .and, .ldr, .str, .rti, .not, .ldi, .sti, .jmp, .res, .lea, .trap]

/-- The opcode that bits [15:12] select (R57). -/
def opcodeOf (n : BitVec 4) : Opcode := opcodeMap.getD n.toNat .res

/-- The number of an opcode in the map (R57). -/
def opcodeNumber (o : Opcode) : BitVec 4 := BitVec.ofNat 4 (opcodeMap.idxOf o)

/-- The register a 3-bit field selects (R56). -/
def regOfField (f : BitVec 3) : Reg :=
  match f.toNat with
  | 0 => .r0
  | 1 => .r1
  | 2 => .r2
  | 3 => .r3
  | 4 => .r4
  | 5 => .r5
  | 6 => .r6
  | _ => .r7

/-- The 3-bit field that selects a register (R56). -/
def fieldOfReg : Reg → BitVec 3
  | .r0 => 0
  | .r1 => 1
  | .r2 => 2
  | .r3 => 3
  | .r4 => 4
  | .r5 => 5
  | .r6 => 6
  | .r7 => 7

/-- `w[lo+n-1:lo]`, the field of n bits from bit lo upward (R8). -/
def bits (w : Word) (lo n : Nat) : BitVec n := w.extractLsb' lo n

/-! ## The decoder unit -/

/-- The outputs of the decoder unit, as R59 lists them. -/
structure DecoderOut where
  opcode : BitVec 4
  sel : BitVec 16
  f11_9 : BitVec 3
  f8_6 : BitVec 3
  f2_0 : BitVec 3
  mode5 : Bool
  mode11 : Bool
  imm5 : Word
  off6 : Word
  off9 : Word
  off11 : Word
  vector : BitVec 8
  deriving DecidableEq, Repr

/-- The decoder unit (R59): every output is computed for every word. -/
def decoderUnit (w : Word) : DecoderOut where
  opcode := bits w 12 4
  sel := 1#16 <<< (bits w 12 4).toNat
  f11_9 := bits w 9 3
  f8_6 := bits w 6 3
  f2_0 := bits w 0 3
  mode5 := w.getLsbD 5
  mode11 := w.getLsbD 11
  imm5 := Machine.sextContract 5 ((bits w 0 5).setWidth 16)
  off6 := Machine.sextContract 6 ((bits w 0 6).setWidth 16)
  off9 := Machine.sextContract 9 ((bits w 0 9).setWidth 16)
  off11 := Machine.sextContract 11 ((bits w 0 11).setWidth 16)
  vector := bits w 0 8

/-- The form of a TRAP word, by its vector (R105). -/
def decodeTrap (v : BitVec 8) : Instr :=
  if v = 0x20#8 then .getc
  else if v = 0x21#8 then .out
  else if v = 0x22#8 then .puts
  else if v = 0x23#8 then .inChar
  else if v = 0x24#8 then .putsp
  else if v = 0x25#8 then .halt
  else .trap v

/-- The form of a word routed to opcode `o`: the mode bit selects between the forms of one opcode (R54), and the ignored
bits of R64 are read by no arm but those of RTI and RES, which record the whole word. The fields are the raw outputs of `decoderUnit`. -/
def decodeForm (o : Opcode) (w : Word) : Instr :=
  match o with
  | .br => if bits w 9 3 = 0#3 then .nop (bits w 0 9) else .br (bits w 9 3) (bits w 0 9)
  | .add =>
    if w.getLsbD 5 then .addImm (regOfField (bits w 9 3)) (regOfField (bits w 6 3)) (bits w 0 5)
    else .addReg (regOfField (bits w 9 3)) (regOfField (bits w 6 3)) (regOfField (bits w 0 3))
  | .ld => .ld (regOfField (bits w 9 3)) (bits w 0 9)
  | .st => .st (regOfField (bits w 9 3)) (bits w 0 9)
  | .jsr => if w.getLsbD 11 then .jsr (bits w 0 11) else .jsrr (regOfField (bits w 6 3))
  | .and =>
    if w.getLsbD 5 then .andImm (regOfField (bits w 9 3)) (regOfField (bits w 6 3)) (bits w 0 5)
    else .andReg (regOfField (bits w 9 3)) (regOfField (bits w 6 3)) (regOfField (bits w 0 3))
  | .ldr => .ldr (regOfField (bits w 9 3)) (regOfField (bits w 6 3)) (bits w 0 6)
  | .str => .str (regOfField (bits w 9 3)) (regOfField (bits w 6 3)) (bits w 0 6)
  | .rti => .rti (bits w 0 12)
  | .not => .not (regOfField (bits w 9 3)) (regOfField (bits w 6 3))
  | .ldi => .ldi (regOfField (bits w 9 3)) (bits w 0 9)
  | .sti => .sti (regOfField (bits w 9 3)) (bits w 0 9)
  | .jmp => if regOfField (bits w 6 3) = .r7 then .ret else .jmp (regOfField (bits w 6 3))
  | .res => .res (bits w 0 12)
  | .lea => .lea (regOfField (bits w 9 3)) (bits w 0 9)
  | .trap => decodeTrap (bits w 0 8)

/-- Decoding: route by the opcode alone (R60), then select the form. -/
def decode (w : Word) : Instr := decodeForm (opcodeOf (bits w 12 4)) w

/-! ## The encoder -/

/-- The word with the field `f` at bits [lo+n-1:lo] and 0 elsewhere (R8). -/
def placed {n : Nat} (f : BitVec n) (lo : Nat) : Word := f.setWidth 16 <<< lo

/-- Format BR and PCR of R53: opcode, a 3-bit field in [11:9], a 9-bit field in [8:0]. -/
def encodePcr (o : Opcode) (a : BitVec 3) (off : BitVec 9) : Word :=
  placed (opcodeNumber o) 12 ||| placed a 9 ||| placed off 0

/-- The formats with register fields in [11:9] and [8:6] and six more bits below (OPR, OPI, NOT, BASE, JMP of R53). -/
def encodeBase (o : Opcode) (a b : BitVec 3) (low : BitVec 6) : Word :=
  placed (opcodeNumber o) 12 ||| placed a 9 ||| placed b 6 ||| placed low 0

/-- Format OPR of R53: bit 5 = 0, bits [4:3] canonical 0 (R64), SR2 in [2:0]. -/
def encodeOpr (o : Opcode) (dr sr1 sr2 : Reg) : Word :=
  encodeBase o (fieldOfReg dr) (fieldOfReg sr1) ((fieldOfReg sr2).setWidth 6)

/-- Format OPI of R53: bit 5 = 1, imm5 in [4:0]. -/
def encodeOpi (o : Opcode) (dr sr1 : Reg) (imm5 : BitVec 5) : Word :=
  encodeBase o (fieldOfReg dr) (fieldOfReg sr1) (imm5.setWidth 6 ||| 0b100000#6)

/-- Formats JSR, TRAP and NONE of R53: opcode and twelve bits. -/
def encodeLow (o : Opcode) (low : BitVec 12) : Word :=
  placed (opcodeNumber o) 12 ||| placed low 0

/-- Format TRAP of R53: bits [11:8] canonical 0 (R64), the vector in [7:0]. -/
def encodeTrap (v : BitVec 8) : Word := encodeLow .trap (v.setWidth 12)

/-- The canonical word of an instruction (R53, R57, and the canonical ignored bits of R64). -/
def encode : Instr → Word
  | .br cond off9 => encodePcr .br cond off9
  | .addReg dr sr1 sr2 => encodeOpr .add dr sr1 sr2
  | .addImm dr sr1 imm5 => encodeOpi .add dr sr1 imm5
  | .ld dr off9 => encodePcr .ld (fieldOfReg dr) off9
  | .st sr off9 => encodePcr .st (fieldOfReg sr) off9
  | .jsrr base => encodeBase .jsr 0#3 (fieldOfReg base) 0#6
  | .jsr off11 => encodeLow .jsr (off11.setWidth 12 ||| 0x800#12)
  | .andReg dr sr1 sr2 => encodeOpr .and dr sr1 sr2
  | .andImm dr sr1 imm5 => encodeOpi .and dr sr1 imm5
  | .ldr dr base off6 => encodeBase .ldr (fieldOfReg dr) (fieldOfReg base) off6
  | .str sr base off6 => encodeBase .str (fieldOfReg sr) (fieldOfReg base) off6
  | .rti low => encodeLow .rti low
  | .not dr sr => encodeBase .not (fieldOfReg dr) (fieldOfReg sr) 0b111111#6
  | .ldi dr off9 => encodePcr .ldi (fieldOfReg dr) off9
  | .sti sr off9 => encodePcr .sti (fieldOfReg sr) off9
  | .jmp base => encodeBase .jmp 0#3 (fieldOfReg base) 0#6
  | .res low => encodeLow .res low
  | .lea dr off9 => encodePcr .lea (fieldOfReg dr) off9
  | .trap v => encodeTrap v
  | .getc => encodeTrap 0x20#8
  | .out => encodeTrap 0x21#8
  | .puts => encodeTrap 0x22#8
  | .inChar => encodeTrap 0x23#8
  | .putsp => encodeTrap 0x24#8
  | .halt => encodeTrap 0x25#8
  | .ret => encodeBase .jmp 0#3 (fieldOfReg .r7) 0#6
  | .nop off9 => encodePcr .br 0#3 off9

/-! ## The host's numbering of the table's words -/

/-- The word whose low `nbits` bits are `w` and whose other bits are 0. An instruction is one word (R52), and the
table numbers its bits as the word does. -/
def tableWord (nbits w : Nat) : Word := BitVec.ofNat 16 (w % 2 ^ nbits)

/-- What the decoder reads from an instruction whose bits are `w`, numbered as the opcode table numbers them. -/
def decodeTableWord (nbits w : Nat) : Option Instr := some (decode (tableWord nbits w))

end Sys2Proof
end

