-- ==== Sys2Proof/Config.lean ====
section
/-! DEFINITION. The parameters the source leaves open (00_scope.md R7) and the free values of the model.
OPCODE_MAP stands in Decode.lean, where a repair can reach it. An `opaque` constant has no body: no proof can
see its value, so a theorem holds for every value of it. -/

namespace Sys2Proof

/-- FLAG_RESET (10_state.md R28, 92_eei_decisions.md D3): Z, or the literal numeric zero NONE. -/
inductive FlagReset where
  | z
  | none
  deriving DecidableEq, Repr

/-- MMIO_READ_MODE (20_memory.md R44, D7): PLAIN, ordinary memory; ANY, a read of a reserved I/O address is an
unconstrained draw. -/
inductive MmioReadMode where
  | plain
  | any
  deriving DecidableEq, Repr

/-- The default of FLAG_RESET (R28). Assumption log 3. -/
def Config.flagReset : FlagReset := .z

/-- ENTRY with no image loaded (R22 gives only "the image's load address"). DESIGN CHOICE, assumption log 4. -/
def Config.entry : Word := 0x0000

/-- The default of MMIO_READ_MODE (R44). Assumption log 5. -/
def Config.mmioReadMode : MmioReadMode := .plain

/-- IN_PROMPT (45_trap_reserved.md R109, D12): the text is not in the source. Assumption log 9. -/
opaque Config.inPrompt : List Byte

/-- HALT_NOTICE (R111, D12): the text is not in the source. Assumption log 9. -/
opaque Config.haltNotice : List Byte

/-- The open integer behind HALT_STATUS. Assumption log 9. -/
opaque Config.haltStatusOpen : Int

/-- HALT_STATUS (R111, D12): any non-zero integer (an open value of 0 stands for 1). Assumption log 9. -/
def Config.haltStatus : Int := if Config.haltStatusOpen = 0 then 1 else Config.haltStatusOpen

/-- A FREE VALUE: the byte the console oracle INPUT answers with (R104, D11), drawn by number. Log 8. -/
opaque Config.inputByte : Nat → Byte

/-- A FREE VALUE: where a run of draws at the reserved I/O addresses begins, how many of them come before the next draw
of zero, or none if no zero comes (R44, D7). With `mmioNonzero` it gives every sequence of words. Log 5. -/
opaque Config.mmioZeroRun : Nat → Option Nat

/-- A FREE VALUE: the word of a draw that is not zero, by number (R44, D7). Log 5. -/
opaque Config.mmioNonzero : Nat → Word

end Sys2Proof
end

