-- ==== Sys2Proof/Machine/State.lean ====
section
/-! DEFINITION. The architectural state of the core (10_state.md R14) as plain data, its reset value (R130), and
the reasons a step can stop. The operations over it are in Ops.lean. -/

namespace Sys2Proof.Machine

/-- The eight general registers, 16 bits each, no alias and no hard-wired value (R15). -/
structure RegFile where
  r0 : Word
  r1 : Word
  r2 : Word
  r3 : Word
  r4 : Word
  r5 : Word
  r6 : Word
  r7 : Word
  deriving DecidableEq, Repr

/-- The condition flag: exactly one of N, Z, P (R23). `none` is the fourth value of R28, which only
FLAG_RESET = NONE puts there and no instruction writes; that it never appears otherwise is an invariant. -/
inductive Flag where
  | n
  | z
  | p
  | none
  deriving DecidableEq, Repr

/-- Memory: the cells (R34) that differ from the reset content, as (address, word) pairs. The canonical form,
addresses strictly rising below 65536 and no entry equal to the reset content, is `Memory.wf`. The cell is one
16-bit word, the smallest unit the hardware addresses (assumption log 12). -/
abbrev Memory := List (Nat × Word)

/-- What an unlisted cell reads as: "every cell is 0x0000 at machine creation" (20_memory.md R35). -/
def Memory.blank : Word := 0x0000

/-- The canonical form of memory. -/
abbrev Memory.wf (m : Memory) : Prop :=
  m.Pairwise (fun c d => c.1 < d.1) ∧ ∀ c ∈ m, c.1 < 65536 ∧ c.2 ≠ Memory.blank

/-- What a fault records, by reason (60_exceptions.md R115). -/
inductive FaultRecord where
  /-- RESERVED_OPCODE: raised by RTI and RES (R112, R113). -/
  | reservedOpcode (opcode : BitVec 4) (word : Word) (addr : Word)
  /-- BAD_TRAP_VECTOR: raised by TRAP with a vector outside 0x20..0x25 (R105). -/
  | badTrapVector (vector : BitVec 8) (addr : Word)
  deriving DecidableEq, Repr

/-- The run state (10_state.md R31, 40_datapath_units.md R76). -/
inductive RunState where
  | running
  | halted
  | faulted (record : FaultRecord)
  deriving DecidableEq, Repr

/-- The two service routines with a loop over a string: PUTS (R108) and PUTSP (R110). -/
inductive StringForm where
  | puts
  | putsp
  deriving DecidableEq, Repr

/-- The state of the machine. `regs` to `out` are the spec's tuple (R14); the last five fields are the model's own:
they carry the spec's parameter MMIO_READ_MODE, its input oracle, and a string loop that never ends, since a step is
a total function of the state. -/
structure State where
  /-- R0..R7 (R15). -/
  regs : RegFile
  /-- The program counter, a word address (R19). -/
  pc : Word
  /-- The condition flag (R23). -/
  flag : Flag
  /-- The 65536 memory cells (R34). -/
  mem : Memory
  /-- The run state (R31). -/
  run : RunState
  /-- The console output trace, oldest byte first (R32). -/
  out : List Byte
  /-- MODEL'S OWN: the parameter MMIO_READ_MODE (R44); no instruction writes it. Assumption log 5. -/
  mmioMode : MmioReadMode
  /-- MODEL'S OWN: bytes the console oracle INPUT supplies next, first call first (R104). Assumption log 8. -/
  input : List Byte
  /-- MODEL'S OWN: whether INPUT answers no call once `input` is used up (R104, D11). Assumption log 8. -/
  inputEnded : Bool
  /-- MODEL'S OWN: how many free values have been drawn. Assumption log 8. -/
  draws : Nat
  /-- MODEL'S OWN: the string routine whose loop meets no zero word, ever (R108, R110): the next step goes on with it
  instead of fetching. Assumption log 11. -/
  printing : Option StringForm
  deriving DecidableEq, Repr

/-- Flag's value under each FLAG_RESET (R28). -/
def flagAtReset : FlagReset → Flag
  | .z => .z
  | .none => .none

/-- The state when the first instruction is fetched (70_reset_and_hazards.md R130) with no image loaded, for given
values of the parameters FLAG_RESET, ENTRY and MMIO_READ_MODE. -/
def State.resetWith (flagReset : FlagReset) (entry : Word) (mmioMode : MmioReadMode) : State where
  regs := ⟨0, 0, 0, 0, 0, 0, 0, 0⟩
  pc := entry
  flag := flagAtReset flagReset
  mem := []
  run := .running
  out := []
  mmioMode := mmioMode
  input := []
  inputEnded := false
  draws := 0
  printing := none

/-- The machine right after reset, with the parameters at their defaults (R130; ENTRY: assumption log 4). -/
def State.reset : State := State.resetWith Config.flagReset Config.entry Config.mmioReadMode

/-- The ways a step has no next state. None of them is a fault of the hardware: those (R115) are next states whose
run state is FAULTED. -/
inductive Fault where
  /-- Raised by `step` in run state HALTED: no step is enabled there (R76). Safe: the hardware takes no step. -/
  | halted
  /-- Raised by `step` in run state FAULTED: no step is enabled there (R76, R114). Safe: no step is taken. -/
  | faulted
  /-- Raised by GETC and IN while INPUT supplies no byte: the step is stuck (R78, R104). `reached` is the state the
  blocked routine has reached: R7 written, and IN's prompt in the trace. Safe: the hardware takes no further step
  until a byte arrives. -/
  | inputWait (reached : State)
  deriving DecidableEq, Repr

/-- The ways a step refuses. -/
inductive Refusal where
  /-- Raised by `exec` for an instruction that has no meaning yet. Safe. Every instruction has one, so no arm
  raises it. -/
  | notModelled (mnemonic : String)
  deriving DecidableEq, Repr

end Sys2Proof.Machine
end

