-- ==== Sys2Proof/Machine/Flags.lean ====
section
/-! DEFINITION. The condition flag: the updater (40_datapath_units.md R71), its numeric encoding (10_state.md R24) and
the test BR makes of it (41_branch.md R82). -/

namespace Sys2Proof.Machine

/-- The flag the updater gives for a value just written (R71). -/
def flagOf (v : Word) : Flag :=
  if v = 0x0000#16 then .z else if v.getLsbD 15 then .n else .p

/-- The condition-flag updater `setcc` (R71), called for flag-updating instructions only (R72). -/
def State.setcc (s : State) (v : Word) : State := { s with flag := flagOf v }

/-- The numeric encoding of Flag (R24, D2); `none` is the numeric zero of FLAG_RESET = NONE (R28, R82). Log 2. -/
def flagCode : Flag → BitVec 3
  | .n => 0b100#3
  | .z => 0b010#3
  | .p => 0b001#3
  | .none => 0b000#3

/-- Whether BR is taken: `(cond & enc(flag)) != 0` (R82). -/
def branchTaken (cond : BitVec 3) (f : Flag) : Bool := cond &&& flagCode f != 0b000#3

end Sys2Proof.Machine
end

