-- ==== Sys2Proof/Machine/Ops.lean ====
section
/-! DEFINITION. The named operations over registers, memory, the console and the run state (the primitives of
00_scope.md R10), instruction fetch, and the raising of a fault. -/

namespace Sys2Proof.Machine

/-! ## Registers (10_state.md §2, §3) -/

/-- The content of one general register. -/
def RegFile.get (f : RegFile) : Reg → Word
  | .r0 => f.r0
  | .r1 => f.r1
  | .r2 => f.r2
  | .r3 => f.r3
  | .r4 => f.r4
  | .r5 => f.r5
  | .r6 => f.r6
  | .r7 => f.r7

/-- The register file with one register replaced. -/
def RegFile.set (f : RegFile) (r : Reg) (v : Word) : RegFile :=
  match r with
  | .r0 => { f with r0 := v }
  | .r1 => { f with r1 := v }
  | .r2 => { f with r2 := v }
  | .r3 => { f with r3 := v }
  | .r4 => { f with r4 := v }
  | .r5 => { f with r5 := v }
  | .r6 => { f with r6 := v }
  | .r7 => { f with r7 := v }

/-- `x[i]` read (R10). -/
def State.reg (s : State) (r : Reg) : Word := s.regs.get r

/-- `x[i] <- v` (R10). -/
def State.writeReg (s : State) (r : Reg) (v : Word) : State := { s with regs := s.regs.set r v }

/-- `pc <- v` (R10). -/
def State.setPc (s : State) (v : Word) : State := { s with pc := v }

/-- Write DR and update Flag from the value written, as every flag-updating instruction does (R25, R72). -/
def State.writeDest (s : State) (dr : Reg) (v : Word) : State := (s.writeReg dr v).setcc v

/-! ## Memory (20_memory.md §2) -/

/-- The content of the cell at an address: the listed word, or the reset content. -/
def Memory.read : Memory → Nat → Word
  | [], _ => Memory.blank
  | (b, u) :: m, a => if a = b then u else Memory.read m a

/-- Put the word `v` at `a` into the list, at its place in the order. -/
def Memory.insert : Memory → Nat → Word → Memory
  | [], a, v => [(a, v)]
  | (b, u) :: m, a, v =>
    if a < b then (a, v) :: (b, u) :: m
    else if a = b then (a, v) :: m
    else (b, u) :: Memory.insert m a v

/-- Write one cell, keeping the canonical form: the reset content is not listed. -/
def Memory.write (m : Memory) (a : Nat) (v : Word) : Memory :=
  if v = Memory.blank then m.filter (fun c => c.1 != a) else Memory.insert m a v

/-- The content of the cell at a word address. -/
def State.cell (s : State) (a : Word) : Word := s.mem.read a.toNat

/-- The four reserved I/O addresses KBSR, KBDR, DSR, DDR (R44). Assumption log 5. -/
def reservedIo (a : Word) : Bool := a == 0xFE00#16 || a == 0xFE02#16 || a == 0xFE04#16 || a == 0xFE06#16

/-- Whether a read of `a` is an unconstrained draw: MMIO_READ_MODE = ANY and a reserved address (R44). -/
def State.readIsDraw (s : State) (a : Word) : Bool := s.mmioMode == .any && reservedIo a

/-- How many draws from number `n` on come before the next draw of zero (none: no zero comes), where `run` says so for
each number at which a run begins. Assumption log 5. -/
def untilZeroOf (run : Nat → Option Nat) : Nat → Option Nat
  | 0 => run 0
  | n + 1 =>
    match untilZeroOf run n with
    | some 0 => run (n + 1)
    | some (k + 1) => some k
    | none => none

/-- Draw number `n`: zero at the end of a run, and `word n`, or 1 in place of zero, within one. Every sequence of words
is `mmioWordOf run word` for some `run` and `word`, so a draw is not constrained (R44). Assumption log 5. -/
def mmioWordOf (run : Nat → Option Nat) (word : Nat → Word) (n : Nat) : Word :=
  if untilZeroOf run n = some 0 then 0x0000#16 else if word n = 0x0000#16 then 0x0001#16 else word n

/-- How many draws from number `n` on come before the next draw of zero. -/
def untilZero (n : Nat) : Option Nat := untilZeroOf Config.mmioZeroRun n

/-- The word of draw number `n`: a FREE VALUE (R44). -/
def mmioWord (n : Nat) : Word := mmioWordOf Config.mmioZeroRun Config.mmioNonzero n

/-- `MemRead(a, 1)` (R37): the cell's content and no state change; under ANY a reserved address gives a free value
(R44), and only the counter of draws moves. -/
def State.memRead (s : State) (a : Word) : Word × State :=
  if s.readIsDraw a then (mmioWord s.draws, { s with draws := s.draws + 1 }) else (s.cell a, s)

/-- `MemWrite(a, 1, v)` (R38): exactly one cell changes. -/
def State.memWrite (s : State) (a v : Word) : State := { s with mem := s.mem.write a.toNat v }

/-! ## The console (45_trap_reserved.md §1) -/

/-- `emit(b)` for each byte of a list, in order (R103). -/
def State.emit (s : State) (bs : List Byte) : State := { s with out := s.out ++ bs }

/-- Record which string routine, if any, has left its loop unfinished. Assumption log 11. -/
def State.setPrinting (s : State) (f : Option StringForm) : State := { s with printing := f }

/-- `input()` (R104): the next byte of the console, or none while INPUT supplies none. Bytes the state holds come
first; after them the oracle answers with a free value, or with nothing once it has ended. -/
def State.nextInput (s : State) : Option (Byte × State) :=
  match s.input with
  | b :: rest => some (b, { s with input := rest })
  | [] => if s.inputEnded then none else some (Config.inputByte s.draws, { s with draws := s.draws + 1 })

/-! ## The run state: halting, and raising a fault (60_exceptions.md §1)
A fault is the only exception of this machine: it saves nothing and vectors nowhere (R120), and nothing returns from
it (R121). -/

/-- `raise Fault(reason, info)` (R114): the run state becomes FAULTED and nothing else changes. -/
def State.raiseFault (s : State) (r : FaultRecord) : State := { s with run := .faulted r }

/-- `halt()` (40_datapath_units.md R80): the run state becomes HALTED and nothing else changes. -/
def State.haltRun (s : State) : State := { s with run := .halted }

/-- The address of the instruction being executed: the incremented PC less one (R19). -/
def State.instrAddr (s : State) : Word := s.pc - 1#16

/-- The reason code of a fault (R115). -/
def faultCode : FaultRecord → Nat
  | .reservedOpcode _ _ _ => 1
  | .badTrapVector _ _ => 2

/-- The status the process exits with: HALT_STATUS after HALT (R80, R111). A fault's status is "process abort", of
which the spec gives no number (R81), and a running machine has none. -/
def State.exitStatus (s : State) : Option Int :=
  match s.run with
  | .halted => some Config.haltStatus
  | .running | .faulted _ => none

/-! ## Instruction fetch (40_datapath_units.md R77) -/

/-- Read the word at the loop-top PC, increment PC, decode. -/
def State.fetch (s : State) : Instr × State :=
  (decode (s.memRead s.pc).1, (s.memRead s.pc).2.setPc (s.pc + 1#16))

/-- The state in which the next step fetches the word `w`: RUNNING with no string loop going on, `w` in the cell at
PC, and reads plain if PC is a reserved address, so that the fetch gives `w`. Assumption log 16. -/
def State.placeNext (s : State) (w : Word) : State :=
  { s.memWrite s.pc w with
    run := .running, printing := none, mmioMode := if reservedIo s.pc then .plain else s.mmioMode }

end Sys2Proof.Machine
end

