-- ==== Sys2Proof/Machine/Operands.lean ====
section
/-! DEFINITION. The operand forms (30_encoding.md R55): the sign-extended immediates and offsets, and the effective
addresses made of them (40_datapath_units.md R75). None is scaled. -/

namespace Sys2Proof.Machine

/-- `sext_5(imm5)` (R55). -/
def sext5 (imm5 : BitVec 5) : Word := sextContract 5 (imm5.setWidth 16)

/-- `sext_6(off6)` (R55). -/
def sext6 (off6 : BitVec 6) : Word := sextContract 6 (off6.setWidth 16)

/-- `sext_9(off9)` (R55). -/
def sext9 (off9 : BitVec 9) : Word := sextContract 9 (off9.setWidth 16)

/-- `sext_11(off11)` (R55). -/
def sext11 (off11 : BitVec 11) : Word := sextContract 11 (off11.setWidth 16)

/-- `PC +16 sext_9(off9)`: the PC-relative address of BR, LD, LDI, LEA, ST, STI. -/
def State.pcOff9 (s : State) (off9 : BitVec 9) : Word := addressAdder s.pc (sext9 off9)

/-- `PC +16 sext_11(off11)`: the target of JSR. -/
def State.pcOff11 (s : State) (off11 : BitVec 11) : Word := addressAdder s.pc (sext11 off11)

/-- `x[BaseR] +16 sext_6(off6)`: the base-plus-offset address of LDR and STR. -/
def State.baseOff6 (s : State) (base : Reg) (off6 : BitVec 6) : Word := addressAdder (s.reg base) (sext6 off6)

end Sys2Proof.Machine
end

