-- ==== Sys2Proof/Machine/Branch.lean ====
section
/-! DEFINITION. The conditional branch BR (41_branch.md R82) and NOP, which is BR with cond = 000 (30_encoding.md R65). -/

namespace Sys2Proof.Machine

/-- The effect of BR (R82): PC moves to the target when the branch is taken, and nothing else changes. -/
def State.branch (s : State) (cond : BitVec 3) (off9 : BitVec 9) : State :=
  if branchTaken cond s.flag then s.setPc (s.pcOff9 off9) else s

/-- BR (R82, R83). -/
def execBr (cond : BitVec 3) (off9 : BitVec 9) (s : State) : Host.Outcome State Fault Refusal :=
  .next (s.branch cond off9)

/-- NOP (R65, R67): BR with cond = 0b000, never taken. -/
def execNop (off9 : BitVec 9) (s : State) : Host.Outcome State Fault Refusal :=
  .next (s.branch 0b000#3 off9)

end Sys2Proof.Machine
end

