-- ==== Sys2Proof/Machine/Jump.lean ====
section
/-! DEFINITION. Jumps and subroutine calls (44_jump.md). No delay slot, and every 16-bit value is a valid target. -/

namespace Sys2Proof.Machine

/-- `temp = PC; PC = target; R7 = temp` (R99, R100): the target is computed before R7 is written. -/
def State.call (s : State) (target : Word) : State := (s.setPc target).writeReg .r7 s.pc

/-- JMP (R98). -/
def execJmp (base : Reg) (s : State) : Host.Outcome State Fault Refusal :=
  .next (s.setPc (s.reg base))

/-- RET (R67): JMP R7, with no special-casing (R98). -/
def execRet (s : State) : Host.Outcome State Fault Refusal :=
  .next (s.setPc (s.reg .r7))

/-- JSR (R99). -/
def execJsr (off11 : BitVec 11) (s : State) : Host.Outcome State Fault Refusal :=
  .next (s.call (s.pcOff11 off11))

/-- JSRR (R100): the base is read before R7 is written, also where the base is R7. -/
def execJsrr (base : Reg) (s : State) : Host.Outcome State Fault Refusal :=
  .next (s.call (s.reg base))

end Sys2Proof.Machine
end

