-- ==== Sys2Proof/Machine/LoadStore.lean ====
section
/-! DEFINITION. Loads, LEA and stores (43_load_store.md). No form changes a base register, and no access faults. -/

namespace Sys2Proof.Machine

/-- Read the word at `ea` into DR and update Flag from it. -/
def State.loadInto (s : State) (dr : Reg) (ea : Word) : State :=
  (s.memRead ea).2.writeDest dr (s.memRead ea).1

/-- LD (R91). -/
def execLd (dr : Reg) (off9 : BitVec 9) (s : State) : Host.Outcome State Fault Refusal :=
  .next (s.loadInto dr (s.pcOff9 off9))

/-- LDI (R92): the first read gives the pointer, the second the data. -/
def execLdi (dr : Reg) (off9 : BitVec 9) (s : State) : Host.Outcome State Fault Refusal :=
  .next ((s.memRead (s.pcOff9 off9)).2.loadInto dr (s.memRead (s.pcOff9 off9)).1)

/-- LDR (R93): the old base gives the address, also where DR is the base. -/
def execLdr (dr base : Reg) (off6 : BitVec 6) (s : State) : Host.Outcome State Fault Refusal :=
  .next (s.loadInto dr (s.baseOff6 base off6))

/-- LEA (R94): the address itself, no memory access; Flag is updated. -/
def execLea (dr : Reg) (off9 : BitVec 9) (s : State) : Host.Outcome State Fault Refusal :=
  .next (s.writeDest dr (s.pcOff9 off9))

/-- ST (R95). -/
def execSt (sr : Reg) (off9 : BitVec 9) (s : State) : Host.Outcome State Fault Refusal :=
  .next (s.memWrite (s.pcOff9 off9) (s.reg sr))

/-- STI (R96): the pointer is read before the write. -/
def execSti (sr : Reg) (off9 : BitVec 9) (s : State) : Host.Outcome State Fault Refusal :=
  .next ((s.memRead (s.pcOff9 off9)).2.memWrite (s.memRead (s.pcOff9 off9)).1 (s.reg sr))

/-- STR (R97). -/
def execStr (sr base : Reg) (off6 : BitVec 6) (s : State) : Host.Outcome State Fault Refusal :=
  .next (s.memWrite (s.baseOff6 base off6) (s.reg sr))

end Sys2Proof.Machine
end

