-- ==== Sys2Proof/Machine/Operate.lean ====
section
/-! DEFINITION. The operate instructions ADD, AND and NOT (42_operate.md). Every source is read before DR is written,
so DR may equal a source. -/

namespace Sys2Proof.Machine

/-- ADD, register form (R84). -/
def execAddReg (dr sr1 sr2 : Reg) (s : State) : Host.Outcome State Fault Refusal :=
  .next (s.writeDest dr (alu .add (s.reg sr1) (s.reg sr2)))

/-- ADD, immediate form (R85). -/
def execAddImm (dr sr1 : Reg) (imm5 : BitVec 5) (s : State) : Host.Outcome State Fault Refusal :=
  .next (s.writeDest dr (alu .add (s.reg sr1) (sext5 imm5)))

/-- AND, register form (R86). -/
def execAndReg (dr sr1 sr2 : Reg) (s : State) : Host.Outcome State Fault Refusal :=
  .next (s.writeDest dr (alu .and (s.reg sr1) (s.reg sr2)))

/-- AND, immediate form (R87). -/
def execAndImm (dr sr1 : Reg) (imm5 : BitVec 5) (s : State) : Host.Outcome State Fault Refusal :=
  .next (s.writeDest dr (alu .and (s.reg sr1) (sext5 imm5)))

/-- NOT (R89); the ALU's second input is unused. -/
def execNot (dr sr : Reg) (s : State) : Host.Outcome State Fault Refusal :=
  .next (s.writeDest dr (alu .not (s.reg sr) 0x0000#16))

end Sys2Proof.Machine
end

