-- ==== Sys2Proof/Machine/Reserved.lean ====
section
/-! DEFINITION. The reserved opcodes RTI and RES (45_trap_reserved.md §4): each raises RESERVED_OPCODE and writes
nothing else; PC keeps its fetch increment. -/

namespace Sys2Proof.Machine

/-- `raise Fault(RESERVED_OPCODE, {opcode, word, addr})` for an opcode and the twelve ignored bits of its word. -/
def State.reservedOpcode (s : State) (o : Opcode) (low : BitVec 12) : State :=
  s.raiseFault (.reservedOpcode (opcodeNumber o) (encodeLow o low) s.instrAddr)

/-- RTI (R112). -/
def execRti (low : BitVec 12) (s : State) : Host.Outcome State Fault Refusal := .next (s.reservedOpcode .rti low)

/-- RES (R113). -/
def execRes (low : BitVec 12) (s : State) : Host.Outcome State Fault Refusal := .next (s.reservedOpcode .res low)

end Sys2Proof.Machine
end

