-- ==== Sys2Proof/Machine/Trap.lean ====
section
/-! DEFINITION. TRAP and the six service routines (45_trap_reserved.md §2, §3). A routine runs as a direct call: it
executes no instruction and writes neither PC nor Flag. -/

namespace Sys2Proof.Machine

/-- What TRAP does before dispatch, for every vector: R7 records the return address (R105). -/
def State.trapEntry (s : State) : State := s.writeReg .r7 s.pc

/-- The low 8 bits of a word, the character OUT, PUTS and PUTSP write (R107, R108, R110). -/
def lowByte (w : Word) : Byte := w.extractLsb' 0 8

/-- The high 8 bits of a word (R110). -/
def highByte (w : Word) : Byte := w.extractLsb' 8 8

/-- The console bytes PUTS writes for a non-zero word (R108). -/
def putsBytes (w : Word) : List Byte := [lowByte w]

/-- The console bytes PUTSP writes for a non-zero word: low byte always, high byte if not zero (R110). -/
def putspBytes (w : Word) : List Byte :=
  if highByte w = 0#8 then [lowByte w] else [lowByte w, highByte w]

/-- The console bytes a string routine writes for a non-zero word. -/
def stringBytes : StringForm → Word → List Byte
  | .puts => putsBytes
  | .putsp => putspBytes

/-- The loop of PUTS and PUTSP (R108, R110): read words from `a` upward, emit the bytes of each, stop at the zero
word, which is not written. `fuel` bounds the words read; where no zero word was among them the loop is recorded as
still to finish. -/
def scanString (f : StringForm) : Nat → Word → State → State
  | 0, _, s => s.setPrinting (some f)
  | fuel + 1, a, s =>
    if (s.memRead a).1 = 0x0000#16 then (s.memRead a).2.setPrinting none
    else scanString f fuel (a + 1#16) ((s.memRead a).2.emit (stringBytes f (s.memRead a).1))

/-- One lap of a string loop: each cell once. -/
def scanCells : Nat := 65536

/-- The words within which a string loop ends, if it ever does: one lap, where reads are plain or no draw of zero comes;
else one lap for each draw up to the next draw of zero, since a lap reads the reserved addresses too. It is a whole
number of laps, and the loop changes no register, so a loop that does not end goes on at x[0]. Assumption log 11. -/
def State.scanBound (s : State) : Nat :=
  match s.mmioMode with
  | .plain => scanCells
  | .any =>
    match untilZero s.draws with
    | some k => scanCells * (k + 1)
    | none => scanCells

/-- PUTS and PUTSP from the address in R0: the whole loop, where it ends; a part of it, where it never does. -/
def State.printString (s : State) (f : StringForm) : Host.Outcome State Fault Refusal :=
  .next (scanString f s.scanBound (s.reg .r0) s)

/-- The step of a machine whose string loop never ends: no fetch, the loop reads on (R77, R108). -/
def State.resumeString (s : State) (f : StringForm) : Host.Outcome State Fault Refusal := s.printString f

/-- The end of GETC and IN: take the next input byte, echo `echo` of it, put it in R0 zero-extended; wait while INPUT
supplies none (R78, R104). -/
def State.readChar (s : State) (echo : Byte → List Byte) : Host.Outcome State Fault Refusal :=
  match s.nextInput with
  | some (b, t) => .next ((t.emit (echo b)).writeReg .r0 (b.setWidth 16))
  | none => .fault (.inputWait s)

/-- The service routine GETC (R106): no echo. -/
def State.getcRoutine (s : State) : Host.Outcome State Fault Refusal := s.readChar (fun _ => [])

/-- The service routine OUT (R107). -/
def State.outRoutine (s : State) : Host.Outcome State Fault Refusal := .next (s.emit [lowByte (s.reg .r0)])

/-- The service routine PUTS (R108). -/
def State.putsRoutine (s : State) : Host.Outcome State Fault Refusal := s.printString .puts

/-- The service routine IN (R109): prompt, read, echo. -/
def State.inRoutine (s : State) : Host.Outcome State Fault Refusal :=
  (s.emit Config.inPrompt).readChar (fun b => [b])

/-- The service routine PUTSP (R110). -/
def State.putspRoutine (s : State) : Host.Outcome State Fault Refusal := s.printString .putsp

/-- The service routine HALT (R111): the notice, then the run state HALTED. -/
def State.haltRoutine (s : State) : Host.Outcome State Fault Refusal := .next (s.emit Config.haltNotice).haltRun

/-- The dispatch of TRAP by its vector (R105). -/
def State.trapDispatch (s : State) (v : BitVec 8) : Host.Outcome State Fault Refusal :=
  if v = 0x20#8 then s.getcRoutine
  else if v = 0x21#8 then s.outRoutine
  else if v = 0x22#8 then s.putsRoutine
  else if v = 0x23#8 then s.inRoutine
  else if v = 0x24#8 then s.putspRoutine
  else if v = 0x25#8 then s.haltRoutine
  else .next (s.raiseFault (.badTrapVector v s.instrAddr))

/-- TRAP (R105). -/
def execTrap (vector : BitVec 8) (s : State) : Host.Outcome State Fault Refusal := s.trapEntry.trapDispatch vector

/-- GETC, TRAP x20 (R106). -/
def execGetc (s : State) : Host.Outcome State Fault Refusal := s.trapEntry.getcRoutine

/-- OUT, TRAP x21 (R107). -/
def execOut (s : State) : Host.Outcome State Fault Refusal := s.trapEntry.outRoutine

/-- PUTS, TRAP x22 (R108). -/
def execPuts (s : State) : Host.Outcome State Fault Refusal := s.trapEntry.putsRoutine

/-- IN, TRAP x23 (R109). -/
def execIn (s : State) : Host.Outcome State Fault Refusal := s.trapEntry.inRoutine

/-- PUTSP, TRAP x24 (R110). -/
def execPutsp (s : State) : Host.Outcome State Fault Refusal := s.trapEntry.putspRoutine

/-- HALT, TRAP x25 (R111). -/
def execHalt (s : State) : Host.Outcome State Fault Refusal := s.trapEntry.haltRoutine

end Sys2Proof.Machine
end

