-- ==== Sys2Proof/Machine/Step.lean ====
section
/-! DEFINITION. One step (40_datapath_units.md R77): enabled only in run state RUNNING (R76), it fetches, increments
PC, decodes and runs the handler; the fetch waits while the handler of the last instruction is in its loop. -/

namespace Sys2Proof.Machine

/-- One fetch-decode-execute of one instruction (R77), or more of a string loop that never ends (R108, R110,
assumption log 11). HALTED and FAULTED are terminal (R76). -/
def step (s : State) : Host.Outcome State Fault Refusal :=
  match s.run with
  | .running =>
    match s.printing with
    | none => exec s.fetch.1 s.fetch.2
    | some f => s.resumeString f
  | .halted => .fault .halted
  | .faulted _ => .fault .faulted

/-- The state with the word `w` placed where `step` fetches its next instruction. Assumption log 16. -/
def State.withFetchWord (s : State) (nbits w : Nat) : State := s.placeNext (tableWord nbits w)

end Sys2Proof.Machine
end

