-- ==== Sys2Proof/Machine/Loader.lean ====
section
/-! DEFINITION. The loader at its interface boundary (70_reset_and_hazards.md R131): the memory and the PC it leaves
for a program image. It runs before the first step and is no part of `step`. -/

namespace Sys2Proof.Machine

/-- The big-endian words of an image file (R131); none for an odd number of bytes (assumption log 15). -/
def imageWords : List Byte → Option (List Word)
  | [] => some []
  | [_] => none
  | hi :: lo :: rest => (imageWords rest).map (fun ws => (placed hi 8 ||| placed lo 0) :: ws)

/-- Write words into consecutive cells from address `a`. -/
def Memory.writeWords : Memory → Nat → List Word → Memory
  | m, _, [] => m
  | m, a, w :: ws => Memory.writeWords (m.write a w) (a + 1) ws

/-- Load an image of load address `A` and words `ws`; refused (none) where a word would land past 0xFFFF (R131, D16). -/
def State.load (s : State) (A : Word) (ws : List Word) : Option State :=
  if ws.length ≤ 65536 - A.toNat then some { s with mem := s.mem.writeWords A.toNat ws } else none

/-- The state at the first fetch for an image file (R129, R130): the image's first word is the load address A, and
ENTRY is A unless one is given (R22). None where the image is refused. -/
def launch (flagReset : FlagReset) (mmioMode : MmioReadMode) (entry : Option Word) (image : List Byte) :
    Option State :=
  match imageWords image with
  | some (A :: ws) => (State.resetWith flagReset (entry.getD A) mmioMode).load A ws
  | some [] | none => none

end Sys2Proof.Machine
end

