-- ==== Sys2Proof/Machine/Ports.lean ====
section
/-! DEFINITION. The register file and the memory unit as the spec's port lists give them (10_state.md R18, 20_memory.md
R39, the spec's decision D8; assumption log 21). No instruction's meaning is written through them: what they do is what the
accessors of Ops.lean do, which is stated of them. -/

namespace Sys2Proof.Machine

/-- The Flag state a 3-bit code stands for (R24); a code that is none of the three is the numeric zero's state. -/
def flagOfCode (c : BitVec 3) : Flag :=
  if c = 0b100#3 then .n else if c = 0b010#3 then .z else if c = 0b001#3 then .p else .none

/-- The inputs of the register file's ports (R18). -/
structure RegPortsIn where
  raIdx : BitVec 3
  rbIdx : BitVec 3
  wEn : Bool
  wIdx : BitVec 3
  wData : Word
  pcWe : Bool
  pcIn : Word
  flagWe : Bool
  flagIn : BitVec 3
  deriving DecidableEq, Repr

/-- The outputs of the register file's ports (R18). -/
structure RegPortsOut where
  raData : Word
  rbData : Word
  pcOut : Word
  flagOut : BitVec 3
  deriving DecidableEq, Repr

/-- The combinational read paths of the register file (R18). -/
def State.regPortsRead (s : State) (i : RegPortsIn) : RegPortsOut where
  raData := s.reg (regOfField i.raIdx)
  rbData := s.reg (regOfField i.rbIdx)
  pcOut := s.pc
  flagOut := flagCode s.flag

/-- The writes of the register file, when the instruction retires (R18): each path writes where its enable is set. -/
def State.regPortsWrite (s : State) (i : RegPortsIn) : State :=
  { s with
    regs := if i.wEn then s.regs.set (regOfField i.wIdx) i.wData else s.regs
    pc := if i.pcWe then i.pcIn else s.pc
    flag := if i.flagWe then flagOfCode i.flagIn else s.flag }

/-- The inputs of the memory unit's ports (R39). -/
structure MemPortsIn where
  rdAddr : Word
  wrEn : Bool
  wrAddr : Word
  wrData : Word
  deriving DecidableEq, Repr

/-- The combinational read port of the memory unit, `rd_data = mem[rd_addr]` (R39). -/
def State.memPortsRead (s : State) (i : MemPortsIn) : Word := s.cell i.rdAddr

/-- The write port of the memory unit, when the instruction retires (R39). -/
def State.memPortsWrite (s : State) (i : MemPortsIn) : State :=
  if i.wrEn then s.memWrite i.wrAddr i.wrData else s

end Sys2Proof.Machine
end

