-- ==== Sys2Proof/Safety.lean ====
section
/-! DEFINITION. The terms the statements use: frames (what an instruction leaves unchanged), what each instruction may
write (10_state.md R16, R20, R25; 20_memory.md R40), which bits of a word mean something (30_encoding.md R53, R64), and the
invariant of a run. -/

namespace Sys2Proof.Machine

/-! ## Frames -/

/-- Every general register but those listed is unchanged. -/
def RegsKeptBut (rs : List Reg) (s t : State) : Prop := ∀ r, r ∉ rs → t.reg r = s.reg r

/-- Every memory cell is unchanged. -/
def CellsKept (s t : State) : Prop := ∀ a : Word, t.cell a = s.cell a

/-- Every memory cell but one is unchanged. -/
def CellsKeptBut (x : Word) (s t : State) : Prop := ∀ a : Word, a ≠ x → t.cell a = s.cell a

/-- The run state, the console trace, the console input, the unfinished string loop and the MMIO mode are unchanged. -/
def EngineKept (s t : State) : Prop :=
  t.run = s.run ∧ t.out = s.out ∧ t.input = s.input ∧ t.inputEnded = s.inputEnded ∧ t.printing = s.printing ∧
    t.mmioMode = s.mmioMode

/-- The flag is the one that shows the sign of the word `v` (R71, R72). -/
def FlagMatches (v : Word) (f : Flag) : Prop :=
  (f = .z ↔ v.toInt = 0) ∧ (f = .n ↔ v.toInt < 0) ∧ (f = .p ↔ 0 < v.toInt)

/-- The whole effect of a flag-updating instruction that gives DR the value `v`: DR and Flag, and nothing else but
the counter of free draws. -/
def DestWritten (dr : Reg) (v : Word) (s t : State) : Prop :=
  t.reg dr = v ∧ FlagMatches v t.flag ∧ t.pc = s.pc ∧ RegsKeptBut [dr] s t ∧ CellsKept s t ∧ EngineKept s t

/-- The whole effect of a store of `v` at `ea`: one cell, and nothing else but the counter of free draws. -/
def CellStored (ea v : Word) (s t : State) : Prop :=
  t.cell ea = v ∧ CellsKeptBut ea s t ∧ RegsKeptBut [] s t ∧ t.flag = s.flag ∧ t.pc = s.pc ∧ EngineKept s t

/-- What every service call does and leaves alone: R7 is the return address, PC, Flag, memory and the MMIO mode are
kept, and of the general registers only R7 and those listed may differ. -/
def ServiceFrame (rs : List Reg) (s t : State) : Prop :=
  t.reg .r7 = s.pc ∧ t.pc = s.pc ∧ t.flag = s.flag ∧ RegsKeptBut (.r7 :: rs) s t ∧ CellsKept s t ∧
    t.mmioMode = s.mmioMode

/-- The address `j` words above `a`, modulo 65536. -/
def wordsAbove (a : Word) (j : Nat) : Word := a + BitVec.ofNat 16 j

/-- R0 points at a string of `k` non-zero words ended by a zero word, none of them read as a free draw. -/
def StringAtR0 (s : State) (k : Nat) : Prop :=
  k < 65536 ∧ (∀ j < k, s.cell (wordsAbove (s.reg .r0) j) ≠ 0) ∧ s.cell (wordsAbove (s.reg .r0) k) = 0 ∧
    ∀ j ≤ k, s.readIsDraw (wordsAbove (s.reg .r0) j) = false

/-- The loop of PUTS and PUTSP as the spec writes it, with no bound on the words read (R108, R110): begun at the
address `a` in `s`, it ends in `t`. -/
inductive StringLoop (bytesOf : Word → List Byte) : Word → State → State → Prop where
  | stop {a : Word} {s : State} : (s.memRead a).1 = 0 → StringLoop bytesOf a s (s.memRead a).2
  | more {a : Word} {s t : State} : (s.memRead a).1 ≠ 0 →
      StringLoop bytesOf (a + 1) ((s.memRead a).2.emit (bytesOf (s.memRead a).1)) t → StringLoop bytesOf a s t

/-! ## What an instruction may write -/

/-- The instructions whose row says "updates flags" (R25, R72). -/
def flagUpdating : Instr → Bool
  | .addReg _ _ _ | .addImm _ _ _ | .andReg _ _ _ | .andImm _ _ _ | .not _ _
  | .ld _ _ | .ldi _ _ | .ldr _ _ _ | .lea _ _ => true
  | .br _ _ | .st _ _ | .jsrr _ | .jsr _ | .str _ _ _ | .rti _ | .sti _ _ | .jmp _ | .res _ | .trap _
  | .getc | .out | .puts | .inChar | .putsp | .halt | .ret | .nop _ => false

/-- The general registers an instruction may write (R16). -/
def regsWritten : Instr → List Reg
  | .addReg dr _ _ | .addImm dr _ _ | .andReg dr _ _ | .andImm dr _ _ | .not dr _
  | .ld dr _ | .ldi dr _ | .ldr dr _ _ | .lea dr _ => [dr]
  | .jsrr _ | .jsr _ | .out | .puts | .putsp | .halt => [.r7]
  | .trap v => if v = 0x20#8 ∨ v = 0x23#8 then [.r7, .r0] else [.r7]
  | .getc | .inChar => [.r7, .r0]
  | .br _ _ | .st _ _ | .str _ _ _ | .sti _ _ | .rti _ | .jmp _ | .res _ | .ret | .nop _ => []

/-- The address an instruction stores to, if it stores (R40): the expressions of the meanings themselves. -/
def storeAddress (i : Instr) (s : State) : Option Word :=
  match i with
  | .st _ off9 => some (s.pcOff9 off9)
  | .sti _ off9 => some (s.memRead (s.pcOff9 off9)).1
  | .str _ base off6 => some (s.baseOff6 base off6)
  | .br _ _ | .addReg _ _ _ | .addImm _ _ _ | .ld _ _ | .jsrr _ | .jsr _ | .andReg _ _ _ | .andImm _ _ _
  | .ldr _ _ _ | .rti _ | .not _ _ | .ldi _ _ | .jmp _ | .res _ | .lea _ _ | .trap _
  | .getc | .out | .puts | .inChar | .putsp | .halt | .ret | .nop _ => none

/-- The opcode an instruction's words carry in bits [15:12] (R61). -/
def opcodeOfInstr : Instr → Opcode
  | .br _ _ | .nop _ => .br
  | .addReg _ _ _ | .addImm _ _ _ => .add
  | .ld _ _ => .ld
  | .st _ _ => .st
  | .jsrr _ | .jsr _ => .jsr
  | .andReg _ _ _ | .andImm _ _ _ => .and
  | .ldr _ _ _ => .ldr
  | .str _ _ _ => .str
  | .rti _ => .rti
  | .not _ _ => .not
  | .ldi _ _ => .ldi
  | .sti _ _ => .sti
  | .jmp _ | .ret => .jmp
  | .res _ => .res
  | .lea _ _ => .lea
  | .trap _ | .getc | .out | .puts | .inChar | .putsp | .halt => .trap

/-- Instructions that run the HALT service routine. -/
def halts : Instr → Prop
  | .halt => True
  | .trap v => v = 0x25#8
  | _ => False

/-- Instructions that raise a fault (R115). -/
def faults : Instr → Prop
  | .rti _ | .res _ => True
  | .trap v => serviceVector v = false
  | _ => False

/-- Instructions that take a byte of console input (R78). -/
def readsConsole : Instr → Prop
  | .getc | .inChar => True
  | .trap v => v = 0x20#8 ∨ v = 0x23#8
  | _ => False

/-- Instructions that scan a string (R108, R110). -/
def printsString : Instr → Prop
  | .puts | .putsp => True
  | .trap v => v = 0x22#8 ∨ v = 0x24#8
  | _ => False

/-- The step from `s` runs a flag-updating instruction: one is fetched, and no string loop goes on. -/
def stepUpdatesFlag (s : State) : Bool := s.printing == none && flagUpdating s.fetch.1

/-- `t` is reached from `s` by steps that each run no flag-updating instruction (R27). -/
inductive QuietSteps (s : State) : State → Prop where
  | start : QuietSteps s s
  | more {t u : State} : QuietSteps s t → stepUpdatesFlag t = false → step t = .next u → QuietSteps s u

/-! ## Encodings -/

/-- The bits of a word that its format gives a meaning (R53); the others are ignored (R64). -/
def significantBits (w : Word) : Word :=
  match opcodeOf (bits w 12 4) with
  | .add | .and => if w.getLsbD 5 then 0xFFFF else 0xFFE7
  | .not => 0xFFC0
  | .jmp => 0xF1C0
  | .jsr => if w.getLsbD 11 then 0xFFFF else 0xF9C0
  | .trap => 0xF0FF
  | .rti | .res => 0xF000
  | .br | .ld | .st | .ldr | .str | .ldi | .sti | .lea => 0xFFFF

/-! ## The invariant of a run -/

/-- The end of a run is consistent with what ended it: after HALT and after a bad vector R7 is the return address,
and a fault's record names the instruction just before PC and its true cause (R105, R111, R114, R115). -/
def EndConsistent (s : State) : Prop :=
  match s.run with
  | .running => True
  | .halted => s.reg .r7 = s.pc
  | .faulted (.reservedOpcode op w addr) => addr = s.pc - 1 ∧ bits w 12 4 = op ∧ (op = 0x8#4 ∨ op = 0xD#4)
  | .faulted (.badTrapVector v addr) => addr = s.pc - 1 ∧ serviceVector v = false ∧ s.reg .r7 = s.pc

/-- A string loop is left unfinished only while the run goes on, and after TRAP's write of R7 (R105, log 11). -/
def LoopConsistent (s : State) : Prop := s.printing ≠ none → s.run = .running ∧ s.reg .r7 = s.pc

/-- The invariant every step keeps: memory in canonical form (log 12), Flag exactly one of N, Z, P (R23), a consistent
end, and a consistent string loop. -/
def Inv (s : State) : Prop := s.mem.wf ∧ s.flag ≠ .none ∧ EndConsistent s ∧ LoopConsistent s

end Sys2Proof.Machine
end

