-- ==== Sys2Proof/Certificates/Slice0/Obligations.lean ====
section
/-! DEFINITION. The statements for the provers, one `def Obligations.<Name> : Prop` each, in the order of
OBLIGATIONS.json. Each docstring names the rule of spec/ it formalises. -/

open Sys2Proof Sys2Proof.Machine

/-! ## Reset and loading -/

/-- R17: every general register is 0x0000 at machine creation, and the loader, which populates memory only, leaves
the registers so. -/
def Obligations.RegistersZeroAtReset : Prop :=
  (∀ r, State.reset.reg r = 0) ∧
  (∀ (f : FlagReset) (entry : Word) (m : MmioReadMode) (r : Reg), (State.resetWith f entry m).reg r = 0) ∧
  ∀ (f : FlagReset) (m : MmioReadMode) (entry : Option Word) (image : List Byte) (s : State),
    launch f m entry image = some s →
      (∀ r, s.reg r = 0) ∧ ∃ e, s = { State.resetWith f e m with mem := s.mem }

/-- The first-fetch table of 70_reset_and_hazards.md §1 for every value of the parameters, with no image. The spec's
own decisions D3 (Flag, log 3) and the model's choice of ENTRY with no image (log 4) are the model's clauses here. -/
def Obligations.FirstFetchState : Prop :=
  (∀ (f : FlagReset) (entry : Word) (m : MmioReadMode),
    (∀ a, (State.resetWith f entry m).cell a = 0) ∧ (State.resetWith f entry m).pc = entry ∧
    (State.resetWith f entry m).run = .running ∧ (State.resetWith f entry m).out = []) ∧
  (∀ a, State.reset.cell a = 0) ∧ State.reset.run = .running ∧ State.reset.out = [] ∧ State.reset.flag = .z ∧
  ∀ entry m, flagCode (State.resetWith .none entry m).flag = 0b000#3

/-- The invariant of `StepKeepsInvariant` holds at reset, whatever ENTRY and MMIO_READ_MODE are. That Flag is one of
N, Z, P there is FLAG_RESET's default Z (the spec's decision D3, log 3; with NONE it fails); the canonical form of
memory (log 12) and the string loop's field (log 11) are the model's choices. -/
def Obligations.ResetMeetsInvariant : Prop :=
  Inv State.reset ∧ ∀ entry m, Inv (State.resetWith .z entry m)

/-- R35: every cell is 0x0000 at machine creation; the loader writes the image's words into one contiguous region
from its load address A; every cell outside stays 0x0000. -/
def Obligations.LoaderPlacesImage : Prop :=
  (∀ (f : FlagReset) (entry : Word) (m : MmioReadMode) (a : Word), (State.resetWith f entry m).cell a = 0) ∧
  ∀ (f : FlagReset) (m : MmioReadMode) (entry : Option Word) (image : List Byte) (A : Word) (ws : List Word),
    imageWords image = some (A :: ws) → ws.length ≤ 65536 - A.toNat →
      ∃ s, launch f m entry image = some s ∧
        (∀ (i : Nat) (h : i < ws.length), s.cell (wordsAbove A i) = ws[i]) ∧
        ∀ a : Word, a.toNat < A.toNat ∨ A.toNat + ws.length ≤ a.toNat → s.cell a = 0

/-- The image file: its words are big-endian, PC is ENTRY or the load address A (the spec's decision D4, log 4), and
an image with a word past 0xFFFF is refused (the spec's decision D16, log 15). -/
def Obligations.ImageFileAndEntry : Prop :=
  (∀ (hi lo : Byte) (rest : List Byte) (ws : List Word), imageWords rest = some ws →
    ∃ w, imageWords (hi :: lo :: rest) = some (w :: ws) ∧ w.toNat = hi.toNat * 256 + lo.toNat) ∧
  ∀ (f : FlagReset) (m : MmioReadMode) (entry : Option Word) (image : List Byte) (A : Word) (ws : List Word),
    imageWords image = some (A :: ws) →
    (ws.length ≤ 65536 - A.toNat → ∃ s, launch f m entry image = some s ∧ s.pc = entry.getD A ∧ s.run = .running ∧
      s.out = [] ∧ s.flag = flagAtReset f) ∧
    (65536 - A.toNat < ws.length → launch f m entry image = none)

/-! ## Memory -/

/-- R38: a write never faults and changes exactly one cell; no register, flag or other state changes. -/
def Obligations.MemWriteChangesOneCell : Prop :=
  ∀ (s : State) (a v : Word), CellStored a v s (s.memWrite a v) ∧ (s.memWrite a v).draws = s.draws

/-- Memory in canonical form, the model's choice of data for the spec's 65536 cells (log 12), is determined by what its
cells read as, and every write keeps the form: equal memories are equal data. -/
def Obligations.CanonicalMemoryIsItsCells : Prop :=
  (∀ m m' : Memory, m.wf → m'.wf → (∀ a : Word, m.read a.toNat = m'.read a.toNat) → m = m') ∧
  ∀ (m : Memory) (a v : Word), m.wf → (m.write a.toNat v).wf

/-- The memory read of 20_memory.md §2 and §4: it returns the cell and changes nothing, on the reserved addresses too
under PLAIN; under ANY a read of one of the four reserved addresses is the next free draw, and only the counter of draws
moves. The four addresses and the two modes are the spec's decision D7 (log 5). The draws are not constrained: every
sequence of words is the draws for some values of the two opaque constants they are made of. -/
def Obligations.MemReadPlainOrDraw : Prop :=
  (∀ (s : State) (a : Word), s.mmioMode = .plain → s.memRead a = (s.cell a, s)) ∧
  (∀ (s : State) (a : Word), a.toNat ∉ [0xFE00, 0xFE02, 0xFE04, 0xFE06] → s.memRead a = (s.cell a, s)) ∧
  (∀ (s : State) (a : Word), s.mmioMode = .any → a.toNat ∈ [0xFE00, 0xFE02, 0xFE04, 0xFE06] →
    s.memRead a = (mmioWord s.draws, { s with draws := s.draws + 1 })) ∧
  (∀ n, mmioWord n = mmioWordOf Config.mmioZeroRun Config.mmioNonzero n) ∧
  ∀ w : Nat → Word, ∃ run word, ∀ n, mmioWordOf run word n = w n

/-! ## Datapath units -/

/-- R68, R70: the sign-extension unit on every input in its domain, and its value on every n-bit field. -/
def Obligations.SignExtensionUnit : Prop :=
  ∀ (n : Nat) (f : Word), 1 ≤ n → n ≤ 16 → ∃ y, sextUnit n f = some y ∧
    (∀ i < 16, y.getLsbD i = if n ≤ i ∧ f.getLsbD (n - 1) then true else f.getLsbD i) ∧
    (f.toNat < 2 ^ n →
      y.toNat = (if f.toNat < 2 ^ (n - 1) then f.toNat else f.toNat + 65536 - 2 ^ n) ∧
      y.toInt = if f.toNat < 2 ^ (n - 1) then (f.toNat : Int) else (f.toNat : Int) - 2 ^ n)

/-- 30_encoding.md §3: each immediate and offset is the signed value of its field, not scaled. -/
def Obligations.OperandsAreSignedFields : Prop :=
  (∀ f, (sext5 f).toInt = f.toInt) ∧ (∀ f, (sext6 f).toInt = f.toInt) ∧ (∀ f, (sext9 f).toInt = f.toInt) ∧
  ∀ f, (sext11 f).toInt = f.toInt

/-- R71: the flag updater shows the sign of the value, gives exactly one of N, Z, P, and writes nothing else. -/
def Obligations.FlagUpdaterShowsSign : Prop :=
  ∀ (s : State) (v : Word), FlagMatches v (s.setcc v).flag ∧
    ((s.setcc v).flag = .n ∨ (s.setcc v).flag = .z ∨ (s.setcc v).flag = .p) ∧
    { s.setcc v with flag := s.flag } = s

/-- 40_datapath_units.md §3: the three ALU functions as arithmetic on the words' numbers; that ADD wraps modulo 65536
is the spec's decision D6 (log 7). -/
def Obligations.AluFunctions : Prop :=
  ∀ a b : Word, (alu .add a b).toNat = (a.toNat + b.toNat) % 65536 ∧
    (∀ i, (alu .and a b).getLsbD i = (a.getLsbD i && b.getLsbD i)) ∧
    (alu .not a b).toNat = 65535 - a.toNat

/-- 10_state.md §2, 20_memory.md §2, ports the spec chose itself (D8, log 21): the port pairs read what the accessors
read, and a disabled path writes nothing. Three instructions through the ports: ADD, JSRR and ST. -/
def Obligations.PortsAgreeWithAccessors : Prop :=
  (∀ (s : State) (i : RegPortsIn), (s.regPortsRead i).raData = s.reg (regOfField i.raIdx) ∧
    (s.regPortsRead i).rbData = s.reg (regOfField i.rbIdx) ∧ (s.regPortsRead i).pcOut = s.pc ∧ flagOfCode (s.regPortsRead i).flagOut = s.flag ∧
    (i.wEn = false → i.pcWe = false → i.flagWe = false → s.regPortsWrite i = s)) ∧
  (∀ (s : State) (i : MemPortsIn), s.memPortsRead i = s.cell i.rdAddr ∧ (i.wrEn = false → s.memPortsWrite i = s)) ∧
  (∀ (s : State) (a b d : BitVec 3),
    exec (.addReg (regOfField d) (regOfField a) (regOfField b)) s = .next (s.regPortsWrite
      ⟨a, b, true, d, (s.regPortsRead ⟨a, b, false, d, 0, false, 0, false, 0⟩).raData +
        (s.regPortsRead ⟨a, b, false, d, 0, false, 0, false, 0⟩).rbData, false, 0, true,
        flagCode (flagOf (s.reg (regOfField a) + s.reg (regOfField b)))⟩)) ∧
  (∀ (s : State) (a : BitVec 3), exec (.jsrr (regOfField a)) s = .next (s.regPortsWrite
    ⟨a, 0, true, 7, s.pc, true, (s.regPortsRead ⟨a, 0, false, 0, 0, false, 0, false, 0⟩).raData, false, 0⟩)) ∧
  ∀ (s : State) (b : BitVec 3) (off9 : BitVec 9), exec (.st (regOfField b) off9) s = .next (s.memPortsWrite
    ⟨0, true, s.pcOff9 off9, (s.regPortsRead ⟨0, b, false, 0, 0, false, 0, false, 0⟩).rbData⟩)

/-! ## Encoding and decoding -/

/-- Decoding the encoded word of a well-formed instruction gives it back, every operand at every value. -/
def Obligations.DecodeEncodeAgree : Prop :=
  ∀ i : Instr, i.wf → decode (encode i) = i

/-- Every word decodes to a well-formed instruction, whose canonical word agrees with it on every bit that its format
gives a meaning. -/
def Obligations.EveryWordIsAnInstruction : Prop :=
  ∀ w : Word, (decode w).wf ∧ (w ^^^ encode (decode w)) &&& significantBits w = 0

/-- 30_encoding.md §6: words that differ only in ignored bits decode alike (the spec's decision D5, log 6); RTI and
RES record their word and differ in nothing else. -/
def Obligations.IgnoredBitsAreIgnored : Prop :=
  (∀ w w' : Word, (w ^^^ w') &&& significantBits w = 0 →
    decode w' = decode w ∨ (∃ l l', decode w = .rti l ∧ decode w' = .rti l') ∨
      ∃ l l', decode w = .res l ∧ decode w' = .res l') ∧
  ∀ (l l' : BitVec 12) (s : State),
    (∃ t t', exec (.rti l) s = .next t ∧ exec (.rti l') s = .next t' ∧ t' = { t with run := t'.run }) ∧
    ∃ t t', exec (.res l) s = .next t ∧ exec (.res l') s = .next t' ∧ t' = { t with run := t'.run }

/-- 30_encoding.md §5: the decoder unit's outputs for every word: one route line high, the raw fields, and the four
sign-extended offsets. The port list is the spec's decision D8. -/
def Obligations.DecoderUnitOutputs : Prop :=
  ∀ w : Word,
    (decoderUnit w).opcode.toNat = w.toNat / 4096 ∧
    (∀ i, (decoderUnit w).sel.getLsbD i = decide (i = w.toNat / 4096)) ∧
    (decoderUnit w).f11_9.toNat = w.toNat / 512 % 8 ∧ (decoderUnit w).f8_6.toNat = w.toNat / 64 % 8 ∧
    (decoderUnit w).f2_0.toNat = w.toNat % 8 ∧
    (decoderUnit w).mode5 = w.getLsbD 5 ∧ (decoderUnit w).mode11 = w.getLsbD 11 ∧
    (decoderUnit w).imm5.toInt = (w.extractLsb' 0 5).toInt ∧ (decoderUnit w).off6.toInt = (w.extractLsb' 0 6).toInt ∧
    (decoderUnit w).off9.toInt = (w.extractLsb' 0 9).toInt ∧
    (decoderUnit w).off11.toInt = (w.extractLsb' 0 11).toInt ∧ (decoderUnit w).vector.toNat = w.toNat % 256

/-- R60: every word is routed to one of the sixteen handlers by bits [15:12] alone, and the handler selects its form by
the mode bit; RTI and RES route to handlers that fault, and a TRAP with a bad vector to TRAP, which faults. -/
def Obligations.RoutedByOpcodeAlone : Prop :=
  ∀ w : Word, opcodeOfInstr (decode w) = opcodeOf (w.extractLsb' 12 4) ∧
    (opcodeOf (w.extractLsb' 12 4) = .add →
      if w.getLsbD 5 then ∃ dr sr1 imm5, decode w = .addImm dr sr1 imm5
      else ∃ dr sr1 sr2, decode w = .addReg dr sr1 sr2) ∧
    (opcodeOf (w.extractLsb' 12 4) = .and →
      if w.getLsbD 5 then ∃ dr sr1 imm5, decode w = .andImm dr sr1 imm5
      else ∃ dr sr1 sr2, decode w = .andReg dr sr1 sr2) ∧
    (opcodeOf (w.extractLsb' 12 4) = .jsr →
      if w.getLsbD 11 then ∃ off11, decode w = .jsr off11 else ∃ base, decode w = .jsrr base) ∧
    (opcodeOf (w.extractLsb' 12 4) = .rti ∨ opcodeOf (w.extractLsb' 12 4) = .res →
      ∀ s, ∃ t r, exec (decode w) s = .next t ∧ t.run = .faulted r) ∧
    (opcodeOf (w.extractLsb' 12 4) = .trap → w.toNat % 256 < 0x20 ∨ 0x25 < w.toNat % 256 →
      ∀ s, ∃ t r, exec (decode w) s = .next t ∧ t.run = .faulted r)

/-- The opcode map of 30_encoding.md §4, which the spec takes from general knowledge (its decision D1, log 1): the
opcode of each value of bits [15:12]. -/
def Obligations.OpcodeMapIsTheDefault : Prop :=
  ∀ w : Word, some (opcodeOfInstr (decode w)) =
    [Opcode.br, .add, .ld, .st, .jsr, .and, .ldr, .str, .rti, .not, .ldi, .sti, .jmp, .res, .lea, .trap][w.toNat / 4096]?

/-- Words of the spec's own vectors (95_test_vectors.md §2.3, §2.6, §2.7; RET: 30_encoding.md §7) decode to the
instructions they are (opcode numbers: the spec's decision D1, log 1), and a register field selects the register of its
unsigned value (30_encoding.md §3). -/
def Obligations.SpecWordsDecode : Prop :=
  regOfField 0b000 = .r0 ∧ regOfField 0b001 = .r1 ∧ regOfField 0b010 = .r2 ∧ regOfField 0b011 = .r3 ∧
  regOfField 0b100 = .r4 ∧ regOfField 0b101 = .r5 ∧ regOfField 0b110 = .r6 ∧ regOfField 0b111 = .r7 ∧
  decode 0x1443 = .addReg .r2 .r1 .r3 ∧ decode 0x145B = .addReg .r2 .r1 .r3 ∧ decode 0x1465 = .addImm .r2 .r1 5 ∧
  decode 0x94BF = .not .r2 .r2 ∧ decode 0x9480 = .not .r2 .r2 ∧ decode 0x4802 = .jsr 2 ∧ decode 0x40C0 = .jsrr .r3 ∧
  decode 0xF025 = .halt ∧ decode 0xFF25 = .halt ∧ decode 0x8000 = .rti 0 ∧ decode 0xDFFF = .res 0xFFF ∧
  decode 0x0000 = .nop 0 ∧ decode 0x2207 = .ld .r1 7 ∧ decode 0x7B01 = .str .r5 .r4 1 ∧ decode 0xC1C0 = .ret

/-! ## The step -/

/-- R77: a step in run state RUNNING, the last handler having retired (no endless string loop going on, log 11), is
the handler of the instruction in the cell at PC, run after the fetch increment of PC; where the fetch is a free
draw, of the instruction drawn; in no other run state is a step enabled. -/
def Obligations.StepRunsDecodedInstruction : Prop :=
  (∀ (s : State) (i : Instr), s.run = .running → s.printing = none → s.readIsDraw s.pc = false → decode (s.cell s.pc) = i →
    step s = exec i (s.setPc (s.pc + 1))) ∧
  (∀ s : State, s.run = .running → s.printing = none →
    step s = exec (decode (s.memRead s.pc).1) ((s.memRead s.pc).2.setPc (s.pc + 1))) ∧
  ∀ s t : State, s.run ≠ .running → step s ≠ .next t

/-- 40_datapath_units.md §4 with the spec's decision D9 (log 10): HALTED and FAULTED are terminal, and from RUNNING
a step ends in HALTED exactly at HALT and in FAULTED exactly at RTI, RES and a TRAP with a bad vector (a step of an
endless string loop, log 11, is none of them). -/
def Obligations.RunStateTransitions : Prop :=
  (∀ s : State, s.run = .halted → step s = .fault .halted) ∧
  (∀ (s : State) (r : FaultRecord), s.run = .faulted r → step s = .fault .faulted) ∧
  ∀ s t : State, step s = .next t → s.run = .running ∧
    (t.run = .halted ↔ s.printing = none ∧ halts s.fetch.1) ∧
    ((∃ r, t.run = .faulted r) ↔ s.printing = none ∧ faults s.fetch.1)

/-- R78, R79, 60_exceptions.md §1: no step is refused; from run state RUNNING a step has no next state exactly where it
fetches GETC or IN and INPUT supplies no byte (that this is a Fault of the model is log 8; that an endless PUTS or
PUTSP, and a state in which one goes on, has a next state is log 11); a zero word executes as a
no-op, and PC wraps from 0xFFFF to 0x0000. -/
def Obligations.OnlyWaitingForInputStops : Prop :=
  (∀ (s : State) (r : Refusal), step s ≠ .refused r) ∧
  (∀ (i : Instr) (s : State) (f : Fault), exec i s = .fault f →
    readsConsole i ∧ s.input = [] ∧ s.inputEnded = true ∧ ∃ reached, f = .inputWait reached) ∧
  (∀ s : State, s.run = .running → ((∀ t, step s ≠ .next t) ↔
    s.printing = none ∧ readsConsole s.fetch.1 ∧ s.input = [] ∧ s.inputEnded = true)) ∧
  ∀ s : State, s.run = .running → s.printing = none → s.readIsDraw s.pc = false → s.cell s.pc = 0 →
    ∃ t, step s = .next t ∧ t = { s with pc := t.pc } ∧ t.pc.toNat = if s.pc.toNat = 65535 then 0 else s.pc.toNat + 1

/-- 20_memory.md §6, a consequence the spec derives: a store over the word after it is the instruction the next step
runs. -/
def Obligations.StoreIsSeenByNextFetch : Prop :=
  ∀ (s : State) (sr : Reg), s.run = .running → s.printing = none → s.mmioMode = .plain → decode (s.cell s.pc) = .st sr 0 →
    ∃ t, step s = .next t ∧ t.cell (s.pc + 1) = s.reg sr ∧ t.pc = s.pc + 1 ∧
      step t = exec (decode (s.reg sr)) (t.setPc (s.pc + 2))

/-! ## Operate instructions -/

/-- R84: ADD, register form. -/
def Obligations.AddRegisterForm : Prop :=
  (∀ (dr sr1 sr2 : Reg) (s : State), ∃ t, exec (.addReg dr sr1 sr2) s = .next t ∧
    DestWritten dr (BitVec.ofNat 16 ((s.reg sr1).toNat + (s.reg sr2).toNat)) s t ∧ t.draws = s.draws) ∧
  ∀ w : Word, opcodeOf (w.extractLsb' 12 4) = .add → w.getLsbD 5 = false →
    decode w = .addReg (regOfField (w.extractLsb' 9 3)) (regOfField (w.extractLsb' 6 3)) (regOfField (w.extractLsb' 0 3))

/-- R85: ADD, immediate form. -/
def Obligations.AddImmediateForm : Prop :=
  (∀ (dr sr1 : Reg) (imm5 : BitVec 5) (s : State), ∃ t, exec (.addImm dr sr1 imm5) s = .next t ∧
    DestWritten dr (BitVec.ofInt 16 ((s.reg sr1).toInt + imm5.toInt)) s t ∧ t.draws = s.draws) ∧
  ∀ w : Word, opcodeOf (w.extractLsb' 12 4) = .add → w.getLsbD 5 = true →
    decode w = .addImm (regOfField (w.extractLsb' 9 3)) (regOfField (w.extractLsb' 6 3)) (w.extractLsb' 0 5)

/-- R86: AND, register form. -/
def Obligations.AndRegisterForm : Prop :=
  (∀ (dr sr1 sr2 : Reg) (s : State), ∃ t, exec (.andReg dr sr1 sr2) s = .next t ∧
    DestWritten dr (s.reg sr1 &&& s.reg sr2) s t ∧ t.draws = s.draws) ∧
  ∀ w : Word, opcodeOf (w.extractLsb' 12 4) = .and → w.getLsbD 5 = false →
    decode w = .andReg (regOfField (w.extractLsb' 9 3)) (regOfField (w.extractLsb' 6 3)) (regOfField (w.extractLsb' 0 3))

/-- R87: AND, immediate form. -/
def Obligations.AndImmediateForm : Prop :=
  (∀ (dr sr1 : Reg) (imm5 : BitVec 5) (s : State), ∃ t, exec (.andImm dr sr1 imm5) s = .next t ∧
    DestWritten dr (s.reg sr1 &&& imm5.signExtend 16) s t ∧ t.draws = s.draws) ∧
  ∀ w : Word, opcodeOf (w.extractLsb' 12 4) = .and → w.getLsbD 5 = true →
    decode w = .andImm (regOfField (w.extractLsb' 9 3)) (regOfField (w.extractLsb' 6 3)) (w.extractLsb' 0 5)

/-- R89: NOT. -/
def Obligations.NotComplements : Prop :=
  (∀ (dr sr : Reg) (s : State), ∃ t, exec (.not dr sr) s = .next t ∧
    DestWritten dr (BitVec.ofNat 16 (65535 - (s.reg sr).toNat)) s t ∧ t.draws = s.draws) ∧
  ∀ w : Word, opcodeOf (w.extractLsb' 12 4) = .not →
    decode w = .not (regOfField (w.extractLsb' 9 3)) (regOfField (w.extractLsb' 6 3))

/-- 42_operate.md, idioms the spec derives: the sequences NOT, ADD #1 (negate), then ADD (subtract), and the OR of
De Morgan. -/
def Obligations.NegateSubtractOr : Prop :=
  (∀ (d r : Reg) (s : State), ∃ s1 s2, exec (.not d r) s = .next s1 ∧ exec (.addImm d d 1) s1 = .next s2 ∧
    (s2.reg d).toNat = (65536 - (s.reg r).toNat) % 65536) ∧
  (∀ (d a b t : Reg) (s : State), t ≠ a → ∃ s1 s2 s3, exec (.not t b) s = .next s1 ∧
    exec (.addImm t t 1) s1 = .next s2 ∧ exec (.addReg d a t) s2 = .next s3 ∧ s3.reg d = s.reg a - s.reg b) ∧
  ∀ (d a b : Reg) (s : State), a ≠ b → ∃ s1 s2 s3 s4, exec (.not a a) s = .next s1 ∧ exec (.not b b) s1 = .next s2 ∧
    exec (.andReg d a b) s2 = .next s3 ∧ exec (.not d d) s3 = .next s4 ∧ s4.reg d = s.reg a ||| s.reg b

/-! ## Loads, LEA and stores -/

/-- R91: LD. -/
def Obligations.LoadPcRelative : Prop :=
  (∀ (dr : Reg) (off9 : BitVec 9) (s : State), ∃ t, exec (.ld dr off9) s = .next t ∧
    DestWritten dr (s.memRead (s.pc + off9.signExtend 16)).1 s t ∧
    (s.mmioMode = .plain → t.reg dr = s.cell (s.pc + off9.signExtend 16))) ∧
  ∀ w : Word, opcodeOf (w.extractLsb' 12 4) = .ld → decode w = .ld (regOfField (w.extractLsb' 9 3)) (w.extractLsb' 0 9)

/-- R92: LDI, true double indirection. -/
def Obligations.LoadIndirect : Prop :=
  (∀ (dr : Reg) (off9 : BitVec 9) (s : State), ∃ t, exec (.ldi dr off9) s = .next t ∧
    DestWritten dr
      ((s.memRead (s.pc + off9.signExtend 16)).2.memRead (s.memRead (s.pc + off9.signExtend 16)).1).1 s t ∧
    (s.mmioMode = .plain → t.reg dr = s.cell (s.cell (s.pc + off9.signExtend 16)))) ∧
  ∀ w : Word, opcodeOf (w.extractLsb' 12 4) = .ldi → decode w = .ldi (regOfField (w.extractLsb' 9 3)) (w.extractLsb' 0 9)

/-- R93: LDR; the old base gives the address, also where DR is the base. -/
def Obligations.LoadBaseOffset : Prop :=
  (∀ (dr base : Reg) (off6 : BitVec 6) (s : State), ∃ t, exec (.ldr dr base off6) s = .next t ∧
    DestWritten dr (s.memRead (s.reg base + off6.signExtend 16)).1 s t ∧
    (s.mmioMode = .plain → t.reg dr = s.cell (s.reg base + off6.signExtend 16))) ∧
  ∀ w : Word, opcodeOf (w.extractLsb' 12 4) = .ldr →
    decode w = .ldr (regOfField (w.extractLsb' 9 3)) (regOfField (w.extractLsb' 6 3)) (w.extractLsb' 0 6)

/-- R94: LEA gives the address itself and updates Flag. -/
def Obligations.LoadEffectiveAddress : Prop :=
  (∀ (dr : Reg) (off9 : BitVec 9) (s : State), ∃ t, exec (.lea dr off9) s = .next t ∧
    DestWritten dr (s.pc + off9.signExtend 16) s t ∧ t.draws = s.draws) ∧
  ∀ w : Word, opcodeOf (w.extractLsb' 12 4) = .lea → decode w = .lea (regOfField (w.extractLsb' 9 3)) (w.extractLsb' 0 9)

/-- R95: ST stores at the address its meaning computes, `PC +16 sext_9(off9)`. -/
def Obligations.StorePcRelative : Prop :=
  (∀ (sr : Reg) (off9 : BitVec 9) (s : State), s.pcOff9 off9 = s.pc + off9.signExtend 16 ∧
    ∃ t, exec (.st sr off9) s = .next t ∧ CellStored (s.pcOff9 off9) (s.reg sr) s t ∧ t.draws = s.draws) ∧
  ∀ w : Word, opcodeOf (w.extractLsb' 12 4) = .st → decode w = .st (regOfField (w.extractLsb' 9 3)) (w.extractLsb' 0 9)

/-- R96: STI stores at the word read from the PC-relative address. -/
def Obligations.StoreIndirect : Prop :=
  (∀ (sr : Reg) (off9 : BitVec 9) (s : State), s.pcOff9 off9 = s.pc + off9.signExtend 16 ∧
    ∃ t, exec (.sti sr off9) s = .next t ∧ CellStored (s.memRead (s.pcOff9 off9)).1 (s.reg sr) s t ∧
      (s.mmioMode = .plain → (s.memRead (s.pcOff9 off9)).1 = s.cell (s.pc + off9.signExtend 16))) ∧
  ∀ w : Word, opcodeOf (w.extractLsb' 12 4) = .sti → decode w = .sti (regOfField (w.extractLsb' 9 3)) (w.extractLsb' 0 9)

/-- R97: STR stores at base plus offset. -/
def Obligations.StoreBaseOffset : Prop :=
  (∀ (sr base : Reg) (off6 : BitVec 6) (s : State), s.baseOff6 base off6 = s.reg base + off6.signExtend 16 ∧
    ∃ t, exec (.str sr base off6) s = .next t ∧ CellStored (s.baseOff6 base off6) (s.reg sr) s t ∧
      t.draws = s.draws) ∧
  ∀ w : Word, opcodeOf (w.extractLsb' 12 4) = .str →
    decode w = .str (regOfField (w.extractLsb' 9 3)) (regOfField (w.extractLsb' 6 3)) (w.extractLsb' 0 6)

/-! ## Branches, jumps and calls -/

/-- 41_branch.md: BR is taken exactly when the bit of `cond` for the current flag is set (n = bit 2 of cond, z = bit
1, p = bit 0: the spec's decision D2, log 2), NOP never, and neither changes anything but PC. -/
def Obligations.BranchOnFlag : Prop :=
  (∀ (cond : BitVec 3) (off9 : BitVec 9) (s : State), ∃ t, exec (.br cond off9) s = .next t ∧
    t = { s with pc := t.pc } ∧
    t.pc = if cond.getLsbD 2 ∧ s.flag = .n ∨ cond.getLsbD 1 ∧ s.flag = .z ∨ cond.getLsbD 0 ∧ s.flag = .p
      then s.pc + off9.signExtend 16 else s.pc) ∧
  (∀ (off9 : BitVec 9) (s : State), exec (.nop off9) s = .next s) ∧
  ∀ w : Word, opcodeOf (w.extractLsb' 12 4) = .br →
    decode w = if w.extractLsb' 9 3 = 0#3 then .nop (w.extractLsb' 0 9)
      else .br (w.extractLsb' 9 3) (w.extractLsb' 0 9)

/-- R98: JMP, and RET, which is JMP R7. -/
def Obligations.JumpToRegister : Prop :=
  (∀ (base : Reg) (i : Instr) (s : State), i = .jmp base ∨ (i = .ret ∧ base = .r7) →
    ∃ t, exec i s = .next t ∧ t.pc = s.reg base ∧ t = { s with pc := t.pc }) ∧
  ∀ w : Word, opcodeOf (w.extractLsb' 12 4) = .jmp →
    decode w = if w.extractLsb' 6 3 = 7#3 then .ret else .jmp (regOfField (w.extractLsb' 6 3))

/-- R99: JSR. -/
def Obligations.CallPcRelative : Prop :=
  (∀ (off11 : BitVec 11) (s : State), ∃ t, exec (.jsr off11) s = .next t ∧ t.pc = s.pc + off11.signExtend 16 ∧
    t.reg .r7 = s.pc ∧ RegsKeptBut [.r7] s t ∧ t.flag = s.flag ∧ CellsKept s t ∧ EngineKept s t ∧
    t.draws = s.draws) ∧
  ∀ w : Word, opcodeOf (w.extractLsb' 12 4) = .jsr → w.getLsbD 11 = true → decode w = .jsr (w.extractLsb' 0 11)

/-- R100: JSRR; the base is read before R7 is written, also where the base is R7. -/
def Obligations.CallThroughRegister : Prop :=
  (∀ (base : Reg) (s : State), ∃ t, exec (.jsrr base) s = .next t ∧ t.pc = s.reg base ∧
    t.reg .r7 = s.pc ∧ RegsKeptBut [.r7] s t ∧ t.flag = s.flag ∧ CellsKept s t ∧ EngineKept s t ∧
    t.draws = s.draws) ∧
  ∀ w : Word, opcodeOf (w.extractLsb' 12 4) = .jsr → w.getLsbD 11 = false →
    decode w = .jsrr (regOfField (w.extractLsb' 6 3))

/-! ## TRAP and the reserved opcodes -/

/-- 45_trap_reserved.md §2, §3: GETC with a byte supplied puts it in R0 zero-extended and emits nothing. The byte is
the first that the state holds, or any byte the oracle draws (the spec's decision D11, log 8); what else is kept is its
decision D14 (log 18). -/
def Obligations.GetcReadsByte : Prop :=
  ∀ (i : Instr) (s : State), i = .getc ∨ i = .trap 0x20 →
    (∀ b rest, s.input = b :: rest → ∃ t, exec i s = .next t ∧ (t.reg .r0).toNat = b.toNat ∧ t.input = rest ∧
      t.out = s.out ∧ t.run = s.run ∧ t.inputEnded = s.inputEnded ∧ t.draws = s.draws ∧
      t.printing = s.printing ∧ ServiceFrame [.r0] s t) ∧
    (s.input = [] → s.inputEnded = false → ∃ t, ∃ b : Byte, exec i s = .next t ∧ (t.reg .r0).toNat = b.toNat ∧
      t.input = [] ∧ t.out = s.out ∧ t.run = s.run ∧ t.inputEnded = false ∧ t.printing = s.printing ∧
      ServiceFrame [.r0] s t)

/-- 45_trap_reserved.md §2, §3: OUT emits the low 8 bits of R0; what else is kept is the spec's decision D14 (log
18). -/
def Obligations.OutWritesLowByte : Prop :=
  ∀ (i : Instr) (s : State), i = .out ∨ i = .trap 0x21 →
    ∃ t, exec i s = .next t ∧ t.out = s.out ++ [BitVec.ofNat 8 (s.reg .r0).toNat] ∧ t.run = s.run ∧
      t.input = s.input ∧ t.inputEnded = s.inputEnded ∧ t.draws = s.draws ∧ t.printing = s.printing ∧
      ServiceFrame [] s t

/-- 45_trap_reserved.md §2, §3: PUTS emits the low byte (the spec's decision D13, log 17) of each word from R0 up to the
first zero word; what else is kept is its decision D14 (log 18). In either MMIO mode, free draws included, the call
completes in ONE step exactly where the spec's unbounded loop ends, and in the same state. -/
def Obligations.PutsWritesString : Prop :=
  (∀ (i : Instr) (s : State) (k : Nat), i = .puts ∨ i = .trap 0x22 → StringAtR0 s k →
    ∃ t, exec i s = .next t ∧
      t.out = s.out ++ (List.range k).map (fun j => BitVec.ofNat 8 (s.cell (wordsAbove (s.reg .r0) j)).toNat) ∧
      t.run = s.run ∧ t.input = s.input ∧ t.inputEnded = s.inputEnded ∧ t.draws = s.draws ∧ t.printing = none ∧
      ServiceFrame [] s t) ∧
  ∀ (i : Instr) (s t : State), i = .puts ∨ i = .trap 0x22 → s.printing = none →
    (exec i s = .next t ∧ t.printing = none ↔
      StringLoop (fun c => [BitVec.ofNat 8 c.toNat]) (s.reg .r0) (s.writeReg .r7 s.pc) t)

/-- 45_trap_reserved.md §2, §3: IN emits the prompt (IN_PROMPT: log 9), takes a byte (log 8), echoes it and puts it in
R0 zero-extended; what else is kept is the spec's decision D14 (log 18). -/
def Obligations.InPromptsEchoesReads : Prop :=
  ∀ (i : Instr) (s : State), i = .inChar ∨ i = .trap 0x23 →
    (∀ b rest, s.input = b :: rest → ∃ t, exec i s = .next t ∧ (t.reg .r0).toNat = b.toNat ∧ t.input = rest ∧
      t.out = s.out ++ Config.inPrompt ++ [b] ∧ t.run = s.run ∧ t.inputEnded = s.inputEnded ∧
      t.draws = s.draws ∧ t.printing = s.printing ∧ ServiceFrame [.r0] s t) ∧
    (s.input = [] → s.inputEnded = false → ∃ t, ∃ b : Byte, exec i s = .next t ∧ (t.reg .r0).toNat = b.toNat ∧
      t.input = [] ∧ t.out = s.out ++ Config.inPrompt ++ [b] ∧ t.run = s.run ∧ t.inputEnded = false ∧
      t.printing = s.printing ∧ ServiceFrame [.r0] s t)

/-- 45_trap_reserved.md §2, §3: PUTSP emits for each word its low byte, then its high byte if that is not zero; what
else is kept is the spec's decision D14 (log 18). In either MMIO mode, free draws included, the call completes in ONE
step exactly where the spec's unbounded loop ends, and in the same state. -/
def Obligations.PutspWritesPackedString : Prop :=
  (∀ (i : Instr) (s : State) (k : Nat), i = .putsp ∨ i = .trap 0x24 → StringAtR0 s k →
    ∃ t, exec i s = .next t ∧
      t.out = s.out ++ (List.range k).flatMap (fun j =>
        BitVec.ofNat 8 (s.cell (wordsAbove (s.reg .r0) j)).toNat ::
          if (s.cell (wordsAbove (s.reg .r0) j)).toNat / 256 = 0 then []
          else [BitVec.ofNat 8 ((s.cell (wordsAbove (s.reg .r0) j)).toNat / 256)]) ∧
      t.run = s.run ∧ t.input = s.input ∧ t.inputEnded = s.inputEnded ∧ t.draws = s.draws ∧ t.printing = none ∧
      ServiceFrame [] s t) ∧
  ∀ (i : Instr) (s t : State), i = .putsp ∨ i = .trap 0x24 → s.printing = none →
    (exec i s = .next t ∧ t.printing = none ↔
      StringLoop (fun c => BitVec.ofNat 8 c.toNat ::
          if c.toNat / 256 = 0 then [] else [BitVec.ofNat 8 (c.toNat / 256)])
        (s.reg .r0) (s.writeReg .r7 s.pc) t)

/-- 45_trap_reserved.md §2, §3, 40_datapath_units.md §4: HALT emits the notice and halts; the exit status is
HALT_STATUS, which is not 0 (parameters: log 9); what else is kept is the spec's decision D14 (log 18). -/
def Obligations.HaltEndsRun : Prop :=
  ∀ (i : Instr) (s : State), i = .halt ∨ i = .trap 0x25 →
    ∃ t, exec i s = .next t ∧ t.run = .halted ∧ t.out = s.out ++ Config.haltNotice ∧
      t.exitStatus = some Config.haltStatus ∧ Config.haltStatus ≠ 0 ∧ t.input = s.input ∧
      t.inputEnded = s.inputEnded ∧ t.draws = s.draws ∧ t.printing = s.printing ∧ ServiceFrame [] s t

/-- 45_trap_reserved.md §2, 60_exceptions.md §1: every TRAP word is one of the six service calls or TRAP with its
vector; each of the other 250 vectors raises BAD_TRAP_VECTOR with the vector and the TRAP's address, after the write
of R7 (the spec's decisions D9, D10: log 10, 19). -/
def Obligations.TrapDispatchAndBadVector : Prop :=
  (∀ w : Word, opcodeOf (w.extractLsb' 12 4) = .trap →
    (w.toNat % 256 = 0x20 → decode w = .getc) ∧ (w.toNat % 256 = 0x21 → decode w = .out) ∧
    (w.toNat % 256 = 0x22 → decode w = .puts) ∧ (w.toNat % 256 = 0x23 → decode w = .inChar) ∧
    (w.toNat % 256 = 0x24 → decode w = .putsp) ∧ (w.toNat % 256 = 0x25 → decode w = .halt) ∧
    (w.toNat % 256 < 0x20 ∨ 0x25 < w.toNat % 256 → decode w = .trap (w.extractLsb' 0 8))) ∧
  ∀ (v : BitVec 8) (s : State), v.toNat < 0x20 ∨ 0x25 < v.toNat →
    ∃ t, exec (.trap v) s = .next t ∧ t.run = .faulted (.badTrapVector v (s.pc - 1)) ∧
      faultCode (.badTrapVector v (s.pc - 1)) = 2 ∧ t.out = s.out ∧ t.input = s.input ∧
      t.inputEnded = s.inputEnded ∧ t.draws = s.draws ∧ t.printing = s.printing ∧ ServiceFrame [] s t

/-- 45_trap_reserved.md §4, 60_exceptions.md §1: every word of opcode RTI or RES raises RESERVED_OPCODE with its opcode,
itself and its address, and changes nothing but the run state (the spec's decisions D9, D10: log 10, 19). -/
def Obligations.ReservedOpcodesFault : Prop :=
  (∀ (w : Word) (s : State), opcodeOf (w.extractLsb' 12 4) = .rti → decode w = .rti (w.extractLsb' 0 12) ∧
    exec (decode w) s = .next { s with run := .faulted (.reservedOpcode (w.extractLsb' 12 4) w (s.pc - 1)) }) ∧
  (∀ (w : Word) (s : State), opcodeOf (w.extractLsb' 12 4) = .res → decode w = .res (w.extractLsb' 0 12) ∧
    exec (decode w) s = .next { s with run := .faulted (.reservedOpcode (w.extractLsb' 12 4) w (s.pc - 1)) }) ∧
  (∀ op w a, faultCode (.reservedOpcode op w a) = 1) ∧
  ∀ (low : BitVec 12) (s : State), (∃ t, exec (.rti low) s = .next t) ∧ ∃ t, exec (.res low) s = .next t

/-- 40_datapath_units.md §4, 45_trap_reserved.md §1: while INPUT supplies no byte (end of input: log 8), GETC and IN
have no next state; R7 is written already, and IN's prompt is in the trace. -/
def Obligations.InputWaits : Prop :=
  ∀ (i : Instr) (s : State), s.input = [] → s.inputEnded = true →
    (i = .getc ∨ i = .trap 0x20 → ∃ r, exec i s = .fault (.inputWait r) ∧ r.out = s.out ∧ r.run = s.run ∧
      r.input = s.input ∧ r.inputEnded = s.inputEnded ∧ r.draws = s.draws ∧ r.printing = s.printing ∧
      ServiceFrame [] s r) ∧
    (i = .inChar ∨ i = .trap 0x23 → ∃ r, exec i s = .fault (.inputWait r) ∧ r.out = s.out ++ Config.inPrompt ∧
      r.run = s.run ∧ r.input = s.input ∧ r.inputEnded = s.inputEnded ∧ r.draws = s.draws ∧
      r.printing = s.printing ∧ ServiceFrame [] s r)

/-- 45_trap_reserved.md §3, 93_implementation_defined.md row 15: a call of PUTS or PUTSP leaves its loop unfinished
exactly where the spec's loop never ends; with plain reads that is where no cell of memory holds 0x0000. Then each
further step reads on, emits at least one byte for each cell, changes nothing else but the counter of draws, and leaves
the loop unfinished again: it emits for ever. That an endless loop shows as steps of a lap each, and so has next
states, is the model's choice (log 11). -/
def Obligations.StringHangsWithoutZeroWord : Prop :=
  (∀ (i : Instr) (f : StringForm) (s : State), printsString i → (f = .puts ↔ i = .puts ∨ i = .trap 0x22) →
    ∃ t, exec i s = .next t ∧
      (t.printing ≠ none ↔ ¬∃ u, StringLoop (stringBytes f) (s.reg .r0) (s.writeReg .r7 s.pc) u) ∧
      (s.mmioMode = .plain → (t.printing ≠ none ↔ ∀ a : Word, s.cell a ≠ 0)) ∧
      (t.printing ≠ none → t.printing = some f ∧ ¬∃ u, StringLoop (stringBytes f) (t.reg .r0) t u)) ∧
  ∀ (s : State) (f : StringForm), s.run = .running → s.printing = some f →
    (¬∃ u, StringLoop (stringBytes f) (s.reg .r0) s u) →
      ∃ (bs : List Byte) (n : Nat), 65536 ≤ bs.length ∧ step s = .next { s with out := s.out ++ bs, draws := n } ∧
        ¬∃ u, StringLoop (stringBytes f) (s.reg .r0) { s with out := s.out ++ bs, draws := n } u

/-! ## Rules of the whole machine -/

/-- R25: the flag-updating instructions set Flag from the word they wrote to DR, every other instruction leaves it
unchanged, and RTI and RES fault before any write. -/
def Obligations.FlagWriters : Prop :=
  (∀ (i : Instr) (s t : State), exec i s = .next t →
    (flagUpdating i = false → t.flag = s.flag) ∧
    (flagUpdating i = true → ∃ dr, regsWritten i = [dr] ∧ t.flag = flagOf (t.reg dr) ∧ FlagMatches (t.reg dr) t.flag)) ∧
  ∀ (i : Instr) (s t : State), (∃ low, i = .rti low ∨ i = .res low) → exec i s = .next t →
    ∃ r, t = { s with run := .faulted r }

/-- R27: from a step that runs a flag-updating instruction on, through steps that run no such instruction, Flag shows
the sign of the word that instruction wrote to its DR; after the writes of R7 and of R0 by the other instructions it
may disagree with the register last written. -/
def Obligations.FlagReflectsLastUpdate : Prop :=
  (∀ s t u : State, stepUpdatesFlag s = true → step s = .next t → QuietSteps t u →
    ∃ dr, regsWritten s.fetch.1 = [dr] ∧ FlagMatches (t.reg dr) u.flag) ∧
  (∃ (off11 : BitVec 11) (s t : State), exec (.jsr off11) s = .next t ∧ ¬FlagMatches (t.reg .r7) t.flag) ∧
  (∃ (base : Reg) (s t : State), exec (.jsrr base) s = .next t ∧ ¬FlagMatches (t.reg .r7) t.flag) ∧
  (∃ s t : State, exec .out s = .next t ∧ ¬FlagMatches (t.reg .r7) t.flag) ∧
  (∃ s t : State, exec .getc s = .next t ∧ ¬FlagMatches (t.reg .r0) t.flag) ∧
  ∃ s t : State, exec .inChar s = .next t ∧ ¬FlagMatches (t.reg .r0) t.flag

/-- R26: only BR reads Flag: any other instruction does the same whatever Flag holds. -/
def Obligations.FlagReadOnlyByBranch : Prop :=
  ∀ (i : Instr) (s t : State) (f : Flag), (∀ cond off9, i ≠ .br cond off9) → exec i s = .next t →
    exec i { s with flag := f } = .next { t with flag := if flagUpdating i then t.flag else f }

/-- 10_state.md §7, 45_trap_reserved.md §1: the output trace only grows, and no instruction reads it (the trace is the
spec's decision D11). -/
def Obligations.TraceOnlyGrows : Prop :=
  ∀ (i : Instr) (s t : State), exec i s = .next t →
    ∃ bs : List Byte, t.out = s.out ++ bs ∧
      ∀ o : List Byte, exec i { s with out := o } = .next { t with out := o ++ bs }

/-- 10_state.md §2, the spec's derived table: an instruction writes no general register but those its row of the
table of writers names. -/
def Obligations.RegisterWriters : Prop :=
  ∀ (i : Instr) (s t : State), exec i s = .next t → RegsKeptBut (regsWritten i) s t

/-- 20_memory.md §2, the spec's derived table: only ST, STI and STR write memory, one cell each, at the address
their meanings compute. -/
def Obligations.MemoryWriters : Prop :=
  ∀ (i : Instr) (s t : State), exec i s = .next t →
    ∀ a : Word, storeAddress i s ≠ some a → t.cell a = s.cell a

/-- 10_state.md §3, the spec's derived rule: how each instruction leaves PC. -/
def Obligations.ProgramCounterWriters : Prop :=
  ∀ (i : Instr) (s t : State), exec i s = .next t →
    t.pc = match i with
      | .br cond off9 => if branchTaken cond s.flag then s.pc + off9.signExtend 16 else s.pc
      | .jmp base => s.reg base
      | .ret => s.reg .r7
      | .jsr off11 => s.pc + off11.signExtend 16
      | .jsrr base => s.reg base
      | _ => s.pc

/-- 60_exceptions.md §1, with the spec's decisions D9 and D10 (log 10, 19): a fault is precise: the instruction that
raises it leaves everything as it was but the run state and, for TRAP, R7, and its record names the cause and the
instruction's own address. -/
def Obligations.FaultsArePrecise : Prop :=
  ∀ (i : Instr) (s t : State) (r : FaultRecord), s.run = .running → exec i s = .next t → t.run = .faulted r →
    match i with
    | .rti low => r = .reservedOpcode (opcodeNumber .rti) (encode (.rti low)) (s.pc - 1) ∧
        t = { s with run := .faulted r }
    | .res low => r = .reservedOpcode (opcodeNumber .res) (encode (.res low)) (s.pc - 1) ∧
        t = { s with run := .faulted r }
    | .trap v => (v.toNat < 0x20 ∨ 0x25 < v.toNat) ∧ r = .badTrapVector v (s.pc - 1) ∧
        t = { s.writeReg .r7 s.pc with run := .faulted r }
    | _ => False

/-- Every step keeps the invariant, from every state that meets it: memory canonical (the model's form, log 12),
Flag one of N, Z, P, a run that ends ends consistently (R7 after HALT: the spec's decision D14, log 18; the record
and R7 after a fault: D9 and D10, log 10, 19), and a string loop is left unfinished only in run state RUNNING with R7
written (log 11). -/
def Obligations.StepKeepsInvariant : Prop :=
  ∀ s t : State, Inv s → step s = .next t → Inv t
end

