-- ==== Sys2Proof/Laws/Decode.lean ====
section
/-! SUPPORT. What the decoder reads from the encoder's formats: the opcode map and the register fields are inverse to
their encoders, and each field of a format is read back. -/

namespace Sys2Proof

@[simp] theorem opcodeOf_opcodeNumber (o : Opcode) : opcodeOf (opcodeNumber o) = o := by
  cases o <;> rfl

@[simp] theorem opcodeNumber_opcodeOf (n : BitVec 4) : opcodeNumber (opcodeOf n) = n := by
  revert n; decide

@[simp] theorem regOfField_fieldOfReg (r : Reg) : regOfField (fieldOfReg r) = r := by
  cases r <;> rfl

@[simp] theorem fieldOfReg_regOfField (f : BitVec 3) : fieldOfReg (regOfField f) = f := by
  revert f; decide

/-- Decoding a word whose opcode is known is selecting the form of that opcode (R60). -/
theorem decode_of_opcode {w : Word} {o : Opcode} (h : opcodeOf (bits w 12 4) = o) : decode w = decodeForm o w := by
  subst h; rfl

/-- The raw outputs of the decoder unit are the fields the decoder reads (R59). -/
theorem decoderUnit_fields (w : Word) :
    (decoderUnit w).opcode = bits w 12 4 ∧ (decoderUnit w).f11_9 = bits w 9 3 ∧ (decoderUnit w).f8_6 = bits w 6 3 ∧
      (decoderUnit w).f2_0 = bits w 0 3 ∧ (decoderUnit w).mode5 = w.getLsbD 5 ∧
      (decoderUnit w).mode11 = w.getLsbD 11 ∧ (decoderUnit w).vector = bits w 0 8 :=
  ⟨rfl, rfl, rfl, rfl, rfl, rfl, rfl⟩

/-! ## Format BR and PCR -/

@[simp] theorem encodePcr_opcode (o : Opcode) (a : BitVec 3) (off : BitVec 9) :
    bits (encodePcr o a off) 12 4 = opcodeNumber o := by
  ext i hi
  interval_cases i <;> simp [encodePcr, bits, placed]

@[simp] theorem encodePcr_f11_9 (o : Opcode) (a : BitVec 3) (off : BitVec 9) :
    bits (encodePcr o a off) 9 3 = a := by
  ext i hi
  interval_cases i <;> simp [encodePcr, bits, placed]

@[simp] theorem encodePcr_off9 (o : Opcode) (a : BitVec 3) (off : BitVec 9) :
    bits (encodePcr o a off) 0 9 = off := by
  ext i hi
  interval_cases i <;> simp [encodePcr, bits, placed]

/-! ## The formats with registers in [11:9] and [8:6] -/

@[simp] theorem encodeBase_opcode (o : Opcode) (a b : BitVec 3) (low : BitVec 6) :
    bits (encodeBase o a b low) 12 4 = opcodeNumber o := by
  ext i hi
  interval_cases i <;> simp [encodeBase, bits, placed]

@[simp] theorem encodeBase_f11_9 (o : Opcode) (a b : BitVec 3) (low : BitVec 6) :
    bits (encodeBase o a b low) 9 3 = a := by
  ext i hi
  interval_cases i <;> simp [encodeBase, bits, placed]

@[simp] theorem encodeBase_f8_6 (o : Opcode) (a b : BitVec 3) (low : BitVec 6) :
    bits (encodeBase o a b low) 6 3 = b := by
  ext i hi
  interval_cases i <;> simp [encodeBase, bits, placed]

@[simp] theorem encodeBase_low (o : Opcode) (a b : BitVec 3) (low : BitVec 6) :
    bits (encodeBase o a b low) 0 6 = low := by
  ext i hi
  interval_cases i <;> simp [encodeBase, bits, placed]

@[simp] theorem encodeBase_mode11 (o : Opcode) (a b : BitVec 3) (low : BitVec 6) :
    (encodeBase o a b low)[11] = a[2] := by
  simp [encodeBase, placed]

@[simp] theorem encodeOpr_opcode (o : Opcode) (dr sr1 sr2 : Reg) :
    bits (encodeOpr o dr sr1 sr2) 12 4 = opcodeNumber o :=
  encodeBase_opcode o _ _ _

@[simp] theorem encodeOpr_f11_9 (o : Opcode) (dr sr1 sr2 : Reg) :
    bits (encodeOpr o dr sr1 sr2) 9 3 = fieldOfReg dr :=
  encodeBase_f11_9 o _ _ _

@[simp] theorem encodeOpr_f8_6 (o : Opcode) (dr sr1 sr2 : Reg) :
    bits (encodeOpr o dr sr1 sr2) 6 3 = fieldOfReg sr1 :=
  encodeBase_f8_6 o _ _ _

@[simp] theorem encodeOpi_opcode (o : Opcode) (dr sr1 : Reg) (imm5 : BitVec 5) :
    bits (encodeOpi o dr sr1 imm5) 12 4 = opcodeNumber o :=
  encodeBase_opcode o _ _ _

@[simp] theorem encodeOpi_f11_9 (o : Opcode) (dr sr1 : Reg) (imm5 : BitVec 5) :
    bits (encodeOpi o dr sr1 imm5) 9 3 = fieldOfReg dr :=
  encodeBase_f11_9 o _ _ _

@[simp] theorem encodeOpi_f8_6 (o : Opcode) (dr sr1 : Reg) (imm5 : BitVec 5) :
    bits (encodeOpi o dr sr1 imm5) 6 3 = fieldOfReg sr1 :=
  encodeBase_f8_6 o _ _ _

@[simp] theorem encodeOpr_mode5 (o : Opcode) (dr sr1 sr2 : Reg) : (encodeOpr o dr sr1 sr2)[5] = false := by
  simp [encodeOpr, encodeBase, placed]

@[simp] theorem encodeOpr_f2_0 (o : Opcode) (dr sr1 sr2 : Reg) :
    bits (encodeOpr o dr sr1 sr2) 0 3 = fieldOfReg sr2 := by
  ext i hi
  interval_cases i <;> simp [encodeOpr, encodeBase, bits, placed]

@[simp] theorem encodeOpi_mode5 (o : Opcode) (dr sr1 : Reg) (imm5 : BitVec 5) :
    (encodeOpi o dr sr1 imm5)[5] = true := by
  simp [encodeOpi, encodeBase, placed]

@[simp] theorem encodeOpi_imm5 (o : Opcode) (dr sr1 : Reg) (imm5 : BitVec 5) :
    bits (encodeOpi o dr sr1 imm5) 0 5 = imm5 := by
  ext i hi
  interval_cases i <;> simp [encodeOpi, encodeBase, bits, placed]

/-! ## The formats with twelve bits below the opcode -/

@[simp] theorem encodeLow_opcode (o : Opcode) (low : BitVec 12) : bits (encodeLow o low) 12 4 = opcodeNumber o := by
  ext i hi
  interval_cases i <;> simp [encodeLow, bits, placed]

@[simp] theorem encodeLow_low (o : Opcode) (low : BitVec 12) : bits (encodeLow o low) 0 12 = low := by
  ext i hi
  interval_cases i <;> simp [encodeLow, bits, placed]

@[simp] theorem encodeLow_off11 (o : Opcode) (off11 : BitVec 11) :
    bits (encodeLow o (off11.setWidth 12 ||| 0x800#12)) 0 11 = off11 := by
  ext i hi
  interval_cases i <;> simp [encodeLow, bits, placed]

@[simp] theorem encodeLow_mode11 (o : Opcode) (low : BitVec 12) : (encodeLow o low)[11] = low[11] := by
  simp [encodeLow, placed]

@[simp] theorem encodeTrap_opcode (v : BitVec 8) : bits (encodeTrap v) 12 4 = opcodeNumber .trap :=
  encodeLow_opcode .trap _

@[simp] theorem encodeTrap_vector (v : BitVec 8) : bits (encodeTrap v) 0 8 = v := by
  ext i hi
  interval_cases i <;> simp [encodeTrap, encodeLow, bits, placed]

/-! ## A word is put together again from its fields -/

/-- The bits of the opcode field of a word. -/
theorem opcodeNumber_bits (w : Word) (i : Nat) (hi : i < 4) :
    (opcodeNumber (opcodeOf (bits w 12 4)))[i] = w[12 + i] := by
  simp only [opcodeNumber_opcodeOf, bits, BitVec.getElem_extractLsb']
  exact BitVec.getLsbD_eq_getElem _

theorem encodePcr_fields (w : Word) : encodePcr (opcodeOf (bits w 12 4)) (bits w 9 3) (bits w 0 9) = w := by
  ext i hi
  simp only [encodePcr, placed, opcodeNumber_opcodeOf]
  interval_cases i <;> simp [bits]

theorem encodeBase_fields (w : Word) :
    encodeBase (opcodeOf (bits w 12 4)) (bits w 9 3) (bits w 6 3) (bits w 0 6) = w := by
  ext i hi
  simp only [encodeBase, placed, opcodeNumber_opcodeOf]
  interval_cases i <;> simp [bits]

theorem encodeLow_fields (w : Word) : encodeLow (opcodeOf (bits w 12 4)) (bits w 0 12) = w := by
  ext i hi
  simp only [encodeLow, placed, opcodeNumber_opcodeOf]
  interval_cases i <;> simp [bits]

end Sys2Proof
end

