-- ==== Sys2Proof/Laws/State.lean ====
section
/-! SUPPORT. One lemma per field per state update, and what the updates do to a register and to a cell, so that later
proofs unfold no record update. -/

namespace Sys2Proof.Machine

/-! ## The register file -/

/-- Reading a register file after a write of one register. -/
@[simp] theorem RegFile.get_set (f : RegFile) (r q : Reg) (v : Word) :
    (f.set r v).get q = if q = r then v else f.get q := by
  cases r <;> cases q <;> rfl

/-- Register files that agree on every register are equal. -/
theorem RegFile.ext_get (f g : RegFile) (h : ∀ r, f.get r = g.get r) : f = g := by
  cases f; cases g
  have h0 := h .r0; have h1 := h .r1; have h2 := h .r2; have h3 := h .r3
  have h4 := h .r4; have h5 := h .r5; have h6 := h .r6; have h7 := h .r7
  simp only [RegFile.get] at h0 h1 h2 h3 h4 h5 h6 h7
  simp [*]

/-! ## Fields -/

@[simp] theorem State.writeReg_regs (s : State) (r : Reg) (v : Word) : (s.writeReg r v).regs = s.regs.set r v := rfl
@[simp] theorem State.writeReg_pc (s : State) (r : Reg) (v : Word) : (s.writeReg r v).pc = s.pc := rfl
@[simp] theorem State.writeReg_flag (s : State) (r : Reg) (v : Word) : (s.writeReg r v).flag = s.flag := rfl
@[simp] theorem State.writeReg_mem (s : State) (r : Reg) (v : Word) : (s.writeReg r v).mem = s.mem := rfl
@[simp] theorem State.writeReg_run (s : State) (r : Reg) (v : Word) : (s.writeReg r v).run = s.run := rfl
@[simp] theorem State.writeReg_out (s : State) (r : Reg) (v : Word) : (s.writeReg r v).out = s.out := rfl
@[simp] theorem State.writeReg_mmioMode (s : State) (r : Reg) (v : Word) : (s.writeReg r v).mmioMode = s.mmioMode := rfl
@[simp] theorem State.writeReg_input (s : State) (r : Reg) (v : Word) : (s.writeReg r v).input = s.input := rfl
@[simp] theorem State.writeReg_inputEnded (s : State) (r : Reg) (v : Word) : (s.writeReg r v).inputEnded = s.inputEnded := rfl
@[simp] theorem State.writeReg_draws (s : State) (r : Reg) (v : Word) : (s.writeReg r v).draws = s.draws := rfl
@[simp] theorem State.writeReg_printing (s : State) (r : Reg) (v : Word) : (s.writeReg r v).printing = s.printing := rfl

@[simp] theorem State.setPc_regs (s : State) (v : Word) : (s.setPc v).regs = s.regs := rfl
@[simp] theorem State.setPc_pc (s : State) (v : Word) : (s.setPc v).pc = v := rfl
@[simp] theorem State.setPc_flag (s : State) (v : Word) : (s.setPc v).flag = s.flag := rfl
@[simp] theorem State.setPc_mem (s : State) (v : Word) : (s.setPc v).mem = s.mem := rfl
@[simp] theorem State.setPc_run (s : State) (v : Word) : (s.setPc v).run = s.run := rfl
@[simp] theorem State.setPc_out (s : State) (v : Word) : (s.setPc v).out = s.out := rfl
@[simp] theorem State.setPc_mmioMode (s : State) (v : Word) : (s.setPc v).mmioMode = s.mmioMode := rfl
@[simp] theorem State.setPc_input (s : State) (v : Word) : (s.setPc v).input = s.input := rfl
@[simp] theorem State.setPc_inputEnded (s : State) (v : Word) : (s.setPc v).inputEnded = s.inputEnded := rfl
@[simp] theorem State.setPc_draws (s : State) (v : Word) : (s.setPc v).draws = s.draws := rfl
@[simp] theorem State.setPc_printing (s : State) (v : Word) : (s.setPc v).printing = s.printing := rfl

@[simp] theorem State.setcc_regs (s : State) (v : Word) : (s.setcc v).regs = s.regs := rfl
@[simp] theorem State.setcc_pc (s : State) (v : Word) : (s.setcc v).pc = s.pc := rfl
@[simp] theorem State.setcc_flag (s : State) (v : Word) : (s.setcc v).flag = flagOf v := rfl
@[simp] theorem State.setcc_mem (s : State) (v : Word) : (s.setcc v).mem = s.mem := rfl
@[simp] theorem State.setcc_run (s : State) (v : Word) : (s.setcc v).run = s.run := rfl
@[simp] theorem State.setcc_out (s : State) (v : Word) : (s.setcc v).out = s.out := rfl
@[simp] theorem State.setcc_mmioMode (s : State) (v : Word) : (s.setcc v).mmioMode = s.mmioMode := rfl
@[simp] theorem State.setcc_input (s : State) (v : Word) : (s.setcc v).input = s.input := rfl
@[simp] theorem State.setcc_inputEnded (s : State) (v : Word) : (s.setcc v).inputEnded = s.inputEnded := rfl
@[simp] theorem State.setcc_draws (s : State) (v : Word) : (s.setcc v).draws = s.draws := rfl
@[simp] theorem State.setcc_printing (s : State) (v : Word) : (s.setcc v).printing = s.printing := rfl

@[simp] theorem State.writeDest_regs (s : State) (dr : Reg) (v : Word) : (s.writeDest dr v).regs = s.regs.set dr v := rfl
@[simp] theorem State.writeDest_pc (s : State) (dr : Reg) (v : Word) : (s.writeDest dr v).pc = s.pc := rfl
@[simp] theorem State.writeDest_flag (s : State) (dr : Reg) (v : Word) : (s.writeDest dr v).flag = flagOf v := rfl
@[simp] theorem State.writeDest_mem (s : State) (dr : Reg) (v : Word) : (s.writeDest dr v).mem = s.mem := rfl
@[simp] theorem State.writeDest_run (s : State) (dr : Reg) (v : Word) : (s.writeDest dr v).run = s.run := rfl
@[simp] theorem State.writeDest_out (s : State) (dr : Reg) (v : Word) : (s.writeDest dr v).out = s.out := rfl
@[simp] theorem State.writeDest_mmioMode (s : State) (dr : Reg) (v : Word) : (s.writeDest dr v).mmioMode = s.mmioMode := rfl
@[simp] theorem State.writeDest_input (s : State) (dr : Reg) (v : Word) : (s.writeDest dr v).input = s.input := rfl
@[simp] theorem State.writeDest_inputEnded (s : State) (dr : Reg) (v : Word) : (s.writeDest dr v).inputEnded = s.inputEnded := rfl
@[simp] theorem State.writeDest_draws (s : State) (dr : Reg) (v : Word) : (s.writeDest dr v).draws = s.draws := rfl
@[simp] theorem State.writeDest_printing (s : State) (dr : Reg) (v : Word) : (s.writeDest dr v).printing = s.printing := rfl

@[simp] theorem State.memWrite_regs (s : State) (a v : Word) : (s.memWrite a v).regs = s.regs := rfl
@[simp] theorem State.memWrite_pc (s : State) (a v : Word) : (s.memWrite a v).pc = s.pc := rfl
@[simp] theorem State.memWrite_flag (s : State) (a v : Word) : (s.memWrite a v).flag = s.flag := rfl
@[simp] theorem State.memWrite_mem (s : State) (a v : Word) : (s.memWrite a v).mem = s.mem.write a.toNat v := rfl
@[simp] theorem State.memWrite_run (s : State) (a v : Word) : (s.memWrite a v).run = s.run := rfl
@[simp] theorem State.memWrite_out (s : State) (a v : Word) : (s.memWrite a v).out = s.out := rfl
@[simp] theorem State.memWrite_mmioMode (s : State) (a v : Word) : (s.memWrite a v).mmioMode = s.mmioMode := rfl
@[simp] theorem State.memWrite_input (s : State) (a v : Word) : (s.memWrite a v).input = s.input := rfl
@[simp] theorem State.memWrite_inputEnded (s : State) (a v : Word) : (s.memWrite a v).inputEnded = s.inputEnded := rfl
@[simp] theorem State.memWrite_draws (s : State) (a v : Word) : (s.memWrite a v).draws = s.draws := rfl
@[simp] theorem State.memWrite_printing (s : State) (a v : Word) : (s.memWrite a v).printing = s.printing := rfl

@[simp] theorem State.emit_regs (s : State) (bs : List Byte) : (s.emit bs).regs = s.regs := rfl
@[simp] theorem State.emit_pc (s : State) (bs : List Byte) : (s.emit bs).pc = s.pc := rfl
@[simp] theorem State.emit_flag (s : State) (bs : List Byte) : (s.emit bs).flag = s.flag := rfl
@[simp] theorem State.emit_mem (s : State) (bs : List Byte) : (s.emit bs).mem = s.mem := rfl
@[simp] theorem State.emit_run (s : State) (bs : List Byte) : (s.emit bs).run = s.run := rfl
@[simp] theorem State.emit_out (s : State) (bs : List Byte) : (s.emit bs).out = s.out ++ bs := rfl
@[simp] theorem State.emit_mmioMode (s : State) (bs : List Byte) : (s.emit bs).mmioMode = s.mmioMode := rfl
@[simp] theorem State.emit_input (s : State) (bs : List Byte) : (s.emit bs).input = s.input := rfl
@[simp] theorem State.emit_inputEnded (s : State) (bs : List Byte) : (s.emit bs).inputEnded = s.inputEnded := rfl
@[simp] theorem State.emit_draws (s : State) (bs : List Byte) : (s.emit bs).draws = s.draws := rfl
@[simp] theorem State.emit_printing (s : State) (bs : List Byte) : (s.emit bs).printing = s.printing := rfl

@[simp] theorem State.raiseFault_regs (s : State) (r : FaultRecord) : (s.raiseFault r).regs = s.regs := rfl
@[simp] theorem State.raiseFault_pc (s : State) (r : FaultRecord) : (s.raiseFault r).pc = s.pc := rfl
@[simp] theorem State.raiseFault_flag (s : State) (r : FaultRecord) : (s.raiseFault r).flag = s.flag := rfl
@[simp] theorem State.raiseFault_mem (s : State) (r : FaultRecord) : (s.raiseFault r).mem = s.mem := rfl
@[simp] theorem State.raiseFault_run (s : State) (r : FaultRecord) : (s.raiseFault r).run = .faulted r := rfl
@[simp] theorem State.raiseFault_out (s : State) (r : FaultRecord) : (s.raiseFault r).out = s.out := rfl
@[simp] theorem State.raiseFault_mmioMode (s : State) (r : FaultRecord) : (s.raiseFault r).mmioMode = s.mmioMode := rfl
@[simp] theorem State.raiseFault_input (s : State) (r : FaultRecord) : (s.raiseFault r).input = s.input := rfl
@[simp] theorem State.raiseFault_inputEnded (s : State) (r : FaultRecord) : (s.raiseFault r).inputEnded = s.inputEnded := rfl
@[simp] theorem State.raiseFault_draws (s : State) (r : FaultRecord) : (s.raiseFault r).draws = s.draws := rfl
@[simp] theorem State.raiseFault_printing (s : State) (r : FaultRecord) : (s.raiseFault r).printing = s.printing := rfl

@[simp] theorem State.haltRun_regs (s : State) : (s.haltRun).regs = s.regs := rfl
@[simp] theorem State.haltRun_pc (s : State) : (s.haltRun).pc = s.pc := rfl
@[simp] theorem State.haltRun_flag (s : State) : (s.haltRun).flag = s.flag := rfl
@[simp] theorem State.haltRun_mem (s : State) : (s.haltRun).mem = s.mem := rfl
@[simp] theorem State.haltRun_run (s : State) : (s.haltRun).run = .halted := rfl
@[simp] theorem State.haltRun_out (s : State) : (s.haltRun).out = s.out := rfl
@[simp] theorem State.haltRun_mmioMode (s : State) : (s.haltRun).mmioMode = s.mmioMode := rfl
@[simp] theorem State.haltRun_input (s : State) : (s.haltRun).input = s.input := rfl
@[simp] theorem State.haltRun_inputEnded (s : State) : (s.haltRun).inputEnded = s.inputEnded := rfl
@[simp] theorem State.haltRun_draws (s : State) : (s.haltRun).draws = s.draws := rfl
@[simp] theorem State.haltRun_printing (s : State) : (s.haltRun).printing = s.printing := rfl

@[simp] theorem State.setPrinting_regs (s : State) (f : Option StringForm) : (s.setPrinting f).regs = s.regs := rfl
@[simp] theorem State.setPrinting_pc (s : State) (f : Option StringForm) : (s.setPrinting f).pc = s.pc := rfl
@[simp] theorem State.setPrinting_flag (s : State) (f : Option StringForm) : (s.setPrinting f).flag = s.flag := rfl
@[simp] theorem State.setPrinting_mem (s : State) (f : Option StringForm) : (s.setPrinting f).mem = s.mem := rfl
@[simp] theorem State.setPrinting_run (s : State) (f : Option StringForm) : (s.setPrinting f).run = s.run := rfl
@[simp] theorem State.setPrinting_out (s : State) (f : Option StringForm) : (s.setPrinting f).out = s.out := rfl
@[simp] theorem State.setPrinting_mmioMode (s : State) (f : Option StringForm) : (s.setPrinting f).mmioMode = s.mmioMode := rfl
@[simp] theorem State.setPrinting_input (s : State) (f : Option StringForm) : (s.setPrinting f).input = s.input := rfl
@[simp] theorem State.setPrinting_inputEnded (s : State) (f : Option StringForm) : (s.setPrinting f).inputEnded = s.inputEnded := rfl
@[simp] theorem State.setPrinting_draws (s : State) (f : Option StringForm) : (s.setPrinting f).draws = s.draws := rfl
@[simp] theorem State.setPrinting_printing (s : State) (f : Option StringForm) : (s.setPrinting f).printing = f := rfl

/-! ## Registers and cells -/

@[simp] theorem State.writeReg_reg (s : State) (r : Reg) (v : Word) (q : Reg) : (s.writeReg r v).reg q = if q = r then v else s.reg q :=
  RegFile.get_set s.regs r q v
@[simp] theorem State.writeReg_cell (s : State) (r : Reg) (v : Word) (c : Word) : (s.writeReg r v).cell c = s.cell c := rfl
@[simp] theorem State.writeReg_readIsDraw (s : State) (r : Reg) (v : Word) (c : Word) :
    (s.writeReg r v).readIsDraw c = s.readIsDraw c := rfl
@[simp] theorem State.setPc_reg (s : State) (v : Word) (q : Reg) : (s.setPc v).reg q = s.reg q := rfl
@[simp] theorem State.setPc_cell (s : State) (v : Word) (c : Word) : (s.setPc v).cell c = s.cell c := rfl
@[simp] theorem State.setPc_readIsDraw (s : State) (v : Word) (c : Word) :
    (s.setPc v).readIsDraw c = s.readIsDraw c := rfl
@[simp] theorem State.setcc_reg (s : State) (v : Word) (q : Reg) : (s.setcc v).reg q = s.reg q := rfl
@[simp] theorem State.setcc_cell (s : State) (v : Word) (c : Word) : (s.setcc v).cell c = s.cell c := rfl
@[simp] theorem State.setcc_readIsDraw (s : State) (v : Word) (c : Word) :
    (s.setcc v).readIsDraw c = s.readIsDraw c := rfl
@[simp] theorem State.writeDest_reg (s : State) (dr : Reg) (v : Word) (q : Reg) : (s.writeDest dr v).reg q = if q = dr then v else s.reg q :=
  RegFile.get_set s.regs dr q v
@[simp] theorem State.writeDest_cell (s : State) (dr : Reg) (v : Word) (c : Word) : (s.writeDest dr v).cell c = s.cell c := rfl
@[simp] theorem State.writeDest_readIsDraw (s : State) (dr : Reg) (v : Word) (c : Word) :
    (s.writeDest dr v).readIsDraw c = s.readIsDraw c := rfl
@[simp] theorem State.memWrite_reg (s : State) (a v : Word) (q : Reg) : (s.memWrite a v).reg q = s.reg q := rfl
@[simp] theorem State.memWrite_readIsDraw (s : State) (a v : Word) (c : Word) :
    (s.memWrite a v).readIsDraw c = s.readIsDraw c := rfl
@[simp] theorem State.emit_reg (s : State) (bs : List Byte) (q : Reg) : (s.emit bs).reg q = s.reg q := rfl
@[simp] theorem State.emit_cell (s : State) (bs : List Byte) (c : Word) : (s.emit bs).cell c = s.cell c := rfl
@[simp] theorem State.emit_readIsDraw (s : State) (bs : List Byte) (c : Word) :
    (s.emit bs).readIsDraw c = s.readIsDraw c := rfl
@[simp] theorem State.raiseFault_reg (s : State) (r : FaultRecord) (q : Reg) : (s.raiseFault r).reg q = s.reg q := rfl
@[simp] theorem State.raiseFault_cell (s : State) (r : FaultRecord) (c : Word) : (s.raiseFault r).cell c = s.cell c := rfl
@[simp] theorem State.raiseFault_readIsDraw (s : State) (r : FaultRecord) (c : Word) :
    (s.raiseFault r).readIsDraw c = s.readIsDraw c := rfl
@[simp] theorem State.haltRun_reg (s : State) (q : Reg) : (s.haltRun).reg q = s.reg q := rfl
@[simp] theorem State.haltRun_cell (s : State) (c : Word) : (s.haltRun).cell c = s.cell c := rfl
@[simp] theorem State.haltRun_readIsDraw (s : State) (c : Word) :
    (s.haltRun).readIsDraw c = s.readIsDraw c := rfl
@[simp] theorem State.setPrinting_reg (s : State) (f : Option StringForm) (q : Reg) : (s.setPrinting f).reg q = s.reg q := rfl
@[simp] theorem State.setPrinting_cell (s : State) (f : Option StringForm) (c : Word) : (s.setPrinting f).cell c = s.cell c := rfl
@[simp] theorem State.setPrinting_readIsDraw (s : State) (f : Option StringForm) (c : Word) :
    (s.setPrinting f).readIsDraw c = s.readIsDraw c := rfl

end Sys2Proof.Machine
end

