-- ==== Sys2Proof/Laws/Memory.lean ====
section
/-! SUPPORT. The laws of memory: reading after a write, and that every memory operation keeps the canonical form. -/

namespace Sys2Proof.Machine

/-! ## Reading after a write -/

/-- Reading after putting one word into the list, canonical or not. -/
theorem Memory.read_insert (m : Memory) (a b : Nat) (v : Word) :
    (Memory.insert m a v).read b = if b = a then v else m.read b := by
  induction m with
  | nil => simp [Memory.insert, Memory.read]
  | cons c m ih =>
    obtain ⟨k, u⟩ := c
    simp only [Memory.insert]
    split
    · simp [Memory.read]
    · split
      · rename_i _ h
        subst h
        by_cases hb : b = a <;> simp [Memory.read, hb]
      · rename_i _ h
        by_cases hk : b = k
        · simp [Memory.read, hk, Ne.symm h]
        · simp [Memory.read, hk, ih]

/-- Reading after taking every entry of one address out of the list. -/
theorem Memory.read_filter (m : Memory) (a b : Nat) :
    Memory.read (m.filter (fun c => c.1 != a)) b = if b = a then Memory.blank else m.read b := by
  induction m with
  | nil => simp [Memory.read]
  | cons c m ih =>
    obtain ⟨k, u⟩ := c
    by_cases hk : k = a
    · subst hk
      rw [List.filter_cons_of_neg (by simp), ih]
      by_cases hb : b = k <;> simp [Memory.read, hb]
    · by_cases hb : b = k
      · simp [Memory.read, hk, hb]
      · simp [Memory.read, hk, hb, ih]

/-- Reading after a write: the written cell holds the word, every other cell is unchanged (R38). -/
@[simp] theorem Memory.read_write (m : Memory) (a b : Nat) (v : Word) :
    (Memory.write m a v).read b = if b = a then v else m.read b := by
  unfold Memory.write
  split
  · rename_i h
    rw [Memory.read_filter, h]
  · exact Memory.read_insert m a b v

/-- The cells after a memory write (R38). -/
@[simp] theorem State.memWrite_cell (s : State) (a v b : Word) :
    (s.memWrite a v).cell b = if b = a then v else s.cell b := by
  simp only [State.cell, State.memWrite_mem, Memory.read_write, BitVec.toNat_inj]

/-! ## The canonical form -/

/-- Where the entries of an insertion come from. -/
theorem Memory.mem_insert {m : Memory} {a : Nat} {v : Word} {c : Nat × Word} (h : c ∈ Memory.insert m a v) :
    c = (a, v) ∨ c ∈ m := by
  induction m with
  | nil => simpa [Memory.insert] using h
  | cons d m ih =>
    obtain ⟨k, u⟩ := d
    simp only [Memory.insert] at h
    split at h
    · simpa using h
    · split at h
      · simp only [List.mem_cons] at h ⊢
        tauto
      · simp only [List.mem_cons] at h ⊢
        rcases h with h | h
        · exact .inr (.inl h)
        · rcases ih h with h | h
          · exact .inl h
          · exact .inr (.inr h)

/-- An insertion keeps the addresses strictly rising. -/
theorem Memory.insert_rising {m : Memory} (a : Nat) (v : Word) (h : m.Pairwise (fun c d => c.1 < d.1)) :
    (Memory.insert m a v).Pairwise (fun c d => c.1 < d.1) := by
  induction m with
  | nil => simp [Memory.insert]
  | cons d m ih =>
    obtain ⟨k, u⟩ := d
    rw [List.pairwise_cons] at h
    simp only [Memory.insert]
    split
    · rename_i hlt
      refine List.pairwise_cons.2 ⟨?_, List.pairwise_cons.2 h⟩
      intro c hc
      rcases List.mem_cons.1 hc with rfl | hc
      · exact hlt
      · exact hlt.trans (h.1 c hc)
    · split
      · rename_i _ heq
        subst heq
        exact List.pairwise_cons.2 ⟨h.1, h.2⟩
      · rename_i hge hne
        refine List.pairwise_cons.2 ⟨?_, ih h.2⟩
        intro c hc
        rcases Memory.mem_insert hc with rfl | hc
        · exact lt_of_le_of_ne (Nat.le_of_not_lt hge) (Ne.symm hne)
        · exact h.1 c hc

/-- A write at an address of the machine keeps memory canonical. -/
theorem Memory.write_wf {m : Memory} {a : Nat} (v : Word) (ha : a < 65536) (h : m.wf) : (Memory.write m a v).wf := by
  unfold Memory.write
  split
  · exact ⟨h.1.filter _, fun c hc => h.2 c (List.mem_filter.1 hc).1⟩
  · rename_i hv
    refine ⟨Memory.insert_rising a v h.1, fun c hc => ?_⟩
    rcases Memory.mem_insert hc with rfl | hc
    · exact ⟨ha, hv⟩
    · exact h.2 c hc

/-- `MemWrite` keeps memory canonical. -/
theorem State.memWrite_wf {s : State} (a v : Word) (h : s.mem.wf) : (s.memWrite a v).mem.wf :=
  Memory.write_wf v a.isLt h

/-- The loader's writes keep memory canonical. -/
theorem Memory.writeWords_wf {ws : List Word} {m : Memory} {a : Nat} (hb : a + ws.length ≤ 65536) (h : m.wf) :
    (m.writeWords a ws).wf := by
  induction ws generalizing m a with
  | nil => exact h
  | cons w ws ih =>
    simp only [List.length_cons] at hb
    exact ih (by omega) (Memory.write_wf w (by omega) h)

/-- Loading an image keeps memory canonical. -/
theorem State.load_wf {s t : State} {A : Word} {ws : List Word} (h : s.mem.wf) (hl : s.load A ws = some t) :
    t.mem.wf := by
  unfold State.load at hl
  split at hl
  · rename_i hb
    obtain rfl := Option.some.inj hl
    have := A.isLt
    exact Memory.writeWords_wf (by omega) h
  · simp at hl

/-- Placing a word for the next fetch keeps memory canonical. -/
theorem State.placeNext_wf {s : State} (w : Word) (h : s.mem.wf) : (s.placeNext w).mem.wf :=
  State.memWrite_wf s.pc w h

/-- Reset memory is canonical. -/
theorem State.resetWith_wf (f : FlagReset) (e : Word) (m : MmioReadMode) : (State.resetWith f e m).mem.wf := by
  exact ⟨List.Pairwise.nil, by simp [State.resetWith]⟩

end Sys2Proof.Machine
end

