-- ==== Sys2Proof/Laws/Ops.lean ====
section
/-! SUPPORT. For each shared operation, one lemma that says everything it can do; proofs cite these and do not unfold
the operations. -/

namespace Sys2Proof.Machine

/-! ## The draws at the reserved addresses (R44) -/

/-- A draw is zero exactly where no draw comes before the next zero. -/
theorem mmioWord_eq_zero (n : Nat) : mmioWord n = 0#16 ↔ untilZero n = some 0 := by
  unfold mmioWord mmioWordOf untilZero
  split
  · simp [*]
  · split <;> simp [*]

/-- Where more draws come before the next zero, one fewer do after a draw. -/
theorem untilZero_succ {n k : Nat} (h : untilZero n = some (k + 1)) : untilZero (n + 1) = some k := by
  unfold untilZero at *
  simp [untilZeroOf, h]

/-- Where no zero comes, none does after a draw. -/
theorem untilZero_none {n : Nat} (h : untilZero n = none) : untilZero (n + 1) = none := by
  unfold untilZero at *
  simp [untilZeroOf, h]

/-! ## MemRead (R37, R44) -/

/-- A read that is a draw gives the drawn word and moves the counter of draws. -/
theorem State.memRead_draw {s : State} {a : Word} (h : s.readIsDraw a = true) :
    s.memRead a = (mmioWord s.draws, { s with draws := s.draws + 1 }) := by
  simp [State.memRead, h]

/-- A read that is no draw gives the cell and changes nothing. -/
theorem State.memRead_plain {s : State} {a : Word} (h : s.readIsDraw a = false) : s.memRead a = (s.cell a, s) := by
  simp [State.memRead, h]

/-- A read changes nothing but the counter of draws. -/
theorem State.memRead_state (s : State) (a : Word) : ∃ n, (s.memRead a).2 = { s with draws := n } := by
  unfold State.memRead
  split
  · exact ⟨_, rfl⟩
  · exact ⟨s.draws, rfl⟩

@[simp] theorem State.memRead_regs (s : State) (a : Word) : (s.memRead a).2.regs = s.regs := by
  obtain ⟨n, h⟩ := s.memRead_state a; rw [h]
@[simp] theorem State.memRead_pc (s : State) (a : Word) : (s.memRead a).2.pc = s.pc := by
  obtain ⟨n, h⟩ := s.memRead_state a; rw [h]
@[simp] theorem State.memRead_flag (s : State) (a : Word) : (s.memRead a).2.flag = s.flag := by
  obtain ⟨n, h⟩ := s.memRead_state a; rw [h]
@[simp] theorem State.memRead_mem (s : State) (a : Word) : (s.memRead a).2.mem = s.mem := by
  obtain ⟨n, h⟩ := s.memRead_state a; rw [h]
@[simp] theorem State.memRead_run (s : State) (a : Word) : (s.memRead a).2.run = s.run := by
  obtain ⟨n, h⟩ := s.memRead_state a; rw [h]
@[simp] theorem State.memRead_out (s : State) (a : Word) : (s.memRead a).2.out = s.out := by
  obtain ⟨n, h⟩ := s.memRead_state a; rw [h]
@[simp] theorem State.memRead_mmioMode (s : State) (a : Word) : (s.memRead a).2.mmioMode = s.mmioMode := by
  obtain ⟨n, h⟩ := s.memRead_state a; rw [h]
@[simp] theorem State.memRead_input (s : State) (a : Word) : (s.memRead a).2.input = s.input := by
  obtain ⟨n, h⟩ := s.memRead_state a; rw [h]
@[simp] theorem State.memRead_inputEnded (s : State) (a : Word) : (s.memRead a).2.inputEnded = s.inputEnded := by
  obtain ⟨n, h⟩ := s.memRead_state a; rw [h]
@[simp] theorem State.memRead_printing (s : State) (a : Word) : (s.memRead a).2.printing = s.printing := by
  obtain ⟨n, h⟩ := s.memRead_state a; rw [h]
@[simp] theorem State.memRead_reg (s : State) (a : Word) (r : Reg) : (s.memRead a).2.reg r = s.reg r := by
  simp [State.reg]
@[simp] theorem State.memRead_cell (s : State) (a b : Word) : (s.memRead a).2.cell b = s.cell b := by
  simp [State.cell]

/-! ## Composite updates -/

/-- A branch moves PC at most. -/
theorem State.branch_spec (s : State) (cond : BitVec 3) (off9 : BitVec 9) :
    s.branch cond off9 = s.setPc (if branchTaken cond s.flag then s.pcOff9 off9 else s.pc) := by
  unfold State.branch
  split
  · rfl
  · cases s; rfl

/-- A call sets PC to its target and R7 to the old PC (R101). -/
theorem State.call_spec (s : State) (target : Word) :
    (s.call target).pc = target ∧ (s.call target).regs = s.regs.set .r7 s.pc ∧
      s.call target = (s.writeReg .r7 s.pc).setPc target := ⟨rfl, rfl, rfl⟩

/-- A load writes DR and Flag from the word read, and moves the counter of draws at most. -/
theorem State.loadInto_spec (s : State) (dr : Reg) (ea : Word) :
    ∃ n, s.loadInto dr ea = ({ s with draws := n } : State).writeDest dr (s.memRead ea).1 := by
  obtain ⟨n, h⟩ := s.memRead_state ea
  exact ⟨n, by rw [State.loadInto, h]⟩

/-! ## The console -/

/-- What `input()` can answer: a byte the state holds, a free draw, or nothing (R104). -/
theorem State.nextInput_cases (s : State) :
    (∃ b rest, s.input = b :: rest ∧ s.nextInput = some (b, { s with input := rest })) ∨
    (s.input = [] ∧ s.inputEnded = false ∧
      s.nextInput = some (Config.inputByte s.draws, { s with draws := s.draws + 1 })) ∨
    (s.input = [] ∧ s.inputEnded = true ∧ s.nextInput = none) := by
  unfold State.nextInput
  split
  · rename_i b rest h
    exact .inl ⟨b, rest, h, rfl⟩
  · rename_i h
    cases he : s.inputEnded with
    | false => exact .inr (.inl ⟨h, rfl, by simp⟩)
    | true => exact .inr (.inr ⟨h, rfl, by simp⟩)

/-- What GETC and IN can do once R7 is written: end with a byte in R0, or wait (R78). -/
theorem State.readChar_cases (s : State) (echo : Byte → List Byte) :
    (∃ b i n, s.readChar echo =
      .next ((({ s with input := i, draws := n } : State).emit (echo b)).writeReg .r0 (b.setWidth 16))) ∨
    (s.input = [] ∧ s.inputEnded = true ∧ s.readChar echo = .fault (.inputWait s)) := by
  rcases s.nextInput_cases with ⟨b, rest, _, h⟩ | ⟨_, _, h⟩ | ⟨h1, h2, h⟩
  · exact .inl ⟨b, rest, s.draws, by rw [State.readChar, h]⟩
  · exact .inl ⟨_, s.input, s.draws + 1, by rw [State.readChar, h]⟩
  · exact .inr ⟨h1, h2, by rw [State.readChar, h]⟩

/-- A scan that reads the zero word ends there and writes nothing (R108, R110). -/
theorem scanString_zero {f : StringForm} {fuel : Nat} {a : Word} {s : State} (h : (s.memRead a).1 = 0#16) :
    scanString f (fuel + 1) a s = (s.memRead a).2.setPrinting none := if_pos h

/-- A scan that reads another word writes its bytes and goes on at the next address (R108, R110). -/
theorem scanString_nonzero {f : StringForm} {fuel : Nat} {a : Word} {s : State} (h : (s.memRead a).1 ≠ 0#16) :
    scanString f (fuel + 1) a s =
      scanString f fuel (a + 1#16) ((s.memRead a).2.emit (stringBytes f (s.memRead a).1)) := if_neg h

/-- A read does not look at whether a string loop is recorded as unfinished. -/
@[simp] theorem State.memRead_setPrinting (s : State) (a : Word) (p : Option StringForm) :
    (s.setPrinting p).memRead a = ((s.memRead a).1, (s.memRead a).2.setPrinting p) := by
  unfold State.memRead
  rw [State.setPrinting_readIsDraw]
  split <;> rfl

/-- A scan does the same whatever loop was recorded as unfinished before it. -/
theorem scanString_setPrinting (f : StringForm) (fuel : Nat) (a : Word) (s : State) (p : Option StringForm) :
    scanString f fuel a (s.setPrinting p) = scanString f fuel a s := by
  induction fuel generalizing a s with
  | zero => rfl
  | succ fuel ih =>
    by_cases h : (s.memRead a).1 = 0#16
    · rw [scanString_zero h, scanString_zero (by simpa using h), State.memRead_setPrinting]
      rfl
    · rw [scanString_nonzero h, scanString_nonzero (by simpa using h), State.memRead_setPrinting]
      exact ih (a + 1#16) ((s.memRead a).2.emit (stringBytes f (s.memRead a).1))

/-- A scan that reads the zero word, not as a draw, changes nothing but that its loop has ended. -/
theorem scanString_stop {f : StringForm} {fuel : Nat} {a : Word} {s : State}
    (hd : s.readIsDraw a = false) (h : s.cell a = 0#16) : scanString f (fuel + 1) a s = s.setPrinting none := by
  rw [scanString_zero (by rw [State.memRead_plain hd]; exact h), State.memRead_plain hd]

/-- A scan that reads another word, not as a draw, writes the bytes of the cell and goes on. -/
theorem scanString_go {f : StringForm} {fuel : Nat} {a : Word} {s : State}
    (hd : s.readIsDraw a = false) (h : s.cell a ≠ 0#16) :
    scanString f (fuel + 1) a s = scanString f fuel (a + 1#16) (s.emit (stringBytes f (s.cell a))) := by
  rw [scanString_nonzero (by rw [State.memRead_plain hd]; exact h), State.memRead_plain hd]

/-- A scan appends to the trace, moves the counter of draws, says whether its loop is still to finish, and changes
nothing else. -/
theorem scanString_state (f : StringForm) (fuel : Nat) (a : Word) (s : State) :
    ∃ bs n p, (p = none ∨ p = some f) ∧
      scanString f fuel a s = { s with out := s.out ++ bs, draws := n, printing := p } := by
  induction fuel generalizing a s with
  | zero => exact ⟨[], s.draws, some f, .inr rfl, by simp [scanString, State.setPrinting]⟩
  | succ fuel ih =>
    obtain ⟨n, hn⟩ := s.memRead_state a
    by_cases h : (s.memRead a).1 = 0#16
    · exact ⟨[], n, none, .inl rfl, by rw [scanString_zero h, hn]; simp [State.setPrinting]⟩
    · obtain ⟨bs, k, p, hp, hs⟩ := ih (a + 1#16) ((s.memRead a).2.emit (stringBytes f (s.memRead a).1))
      refine ⟨stringBytes f (s.memRead a).1 ++ bs, k, p, hp, ?_⟩
      rw [scanString_nonzero h, hs, hn]
      simp [State.emit, List.append_assoc]

/-- What PUTS and PUTSP do once R7 is written: bytes appended to the trace, and the loop ended or still to finish. -/
theorem State.printString_cases (s : State) (f : StringForm) :
    ∃ bs n p, (p = none ∨ p = some f) ∧
      s.printString f = .next { s with out := s.out ++ bs, draws := n, printing := p } := by
  obtain ⟨bs, n, p, hp, h⟩ := scanString_state f s.scanBound (s.reg .r0) s
  exact ⟨bs, n, p, hp, by rw [State.printString, h]⟩

/-- The dispatch of TRAP: one of the six routines, or the fault of a bad vector (R105). -/
theorem State.trapDispatch_cases (s : State) (v : BitVec 8) :
    (v = 0x20#8 ∧ s.trapDispatch v = s.getcRoutine) ∨ (v = 0x21#8 ∧ s.trapDispatch v = s.outRoutine) ∨
    (v = 0x22#8 ∧ s.trapDispatch v = s.putsRoutine) ∨ (v = 0x23#8 ∧ s.trapDispatch v = s.inRoutine) ∨
    (v = 0x24#8 ∧ s.trapDispatch v = s.putspRoutine) ∨ (v = 0x25#8 ∧ s.trapDispatch v = s.haltRoutine) ∨
    (serviceVector v = false ∧ s.trapDispatch v = .next (s.raiseFault (.badTrapVector v s.instrAddr))) := by
  by_cases h0 : v = 0x20#8
  · subst h0; exact .inl ⟨rfl, rfl⟩
  by_cases h1 : v = 0x21#8
  · subst h1; exact .inr (.inl ⟨rfl, rfl⟩)
  by_cases h2 : v = 0x22#8
  · subst h2; exact .inr (.inr (.inl ⟨rfl, rfl⟩))
  by_cases h3 : v = 0x23#8
  · subst h3; exact .inr (.inr (.inr (.inl ⟨rfl, rfl⟩)))
  by_cases h4 : v = 0x24#8
  · subst h4; exact .inr (.inr (.inr (.inr (.inl ⟨rfl, rfl⟩))))
  by_cases h5 : v = 0x25#8
  · subst h5; exact .inr (.inr (.inr (.inr (.inr (.inl ⟨rfl, rfl⟩)))))
  refine .inr (.inr (.inr (.inr (.inr (.inr ⟨?_, by simp [State.trapDispatch, h0, h1, h2, h3, h4, h5]⟩)))))
  simp only [serviceVector, BitVec.le_def, Bool.and_eq_false_iff, decide_eq_false_iff_not, ← BitVec.toNat_inj] at *
  simp only [BitVec.toNat_ofNat] at *
  omega

/-! ## Fetch and step -/

/-- Fetching a cell that is no draw: decode its word, with PC moved past it (R77). -/
theorem State.fetch_plain {s : State} (h : s.readIsDraw s.pc = false) :
    s.fetch = (decode (s.cell s.pc), s.setPc (s.pc + 1#16)) := by
  simp [State.fetch, State.memRead_plain h]

/-- A step in run state RUNNING with no string loop going on is the handler of the fetched instruction (R77). -/
theorem step_running {s : State} (h : s.run = .running) (hp : s.printing = none) :
    step s = exec s.fetch.1 s.fetch.2 := by
  simp [step, h, hp]

/-- A step in run state RUNNING with a string loop going on reads on in it. -/
theorem step_printing {s : State} {f : StringForm} (h : s.run = .running) (hp : s.printing = some f) :
    step s = s.printString f := by
  simp [step, h, hp, State.resumeString]

/-- A step with a next state was taken in run state RUNNING (R76), as a fetched instruction or a part of an endless loop. -/
theorem step_next_running {s t : State} (h : step s = .next t) :
    s.run = .running ∧ ((s.printing = none ∧ exec s.fetch.1 s.fetch.2 = .next t) ∨
      ∃ f, s.printing = some f ∧ s.printString f = .next t) := by
  have hr : s.run = .running := by
    unfold step at h
    split at h
    · assumption
    · simp at h
    · simp at h
  refine ⟨hr, ?_⟩
  cases hp : s.printing with
  | none => exact .inl ⟨rfl, step_running hr hp ▸ h⟩
  | some f => exact .inr ⟨f, rfl, step_printing hr hp ▸ h⟩

/-- The word `withFetchWord` places is the one the next step runs. -/
theorem step_withFetchWord (s : State) (nbits w : Nat) :
    step (s.withFetchWord nbits w) =
      exec (decode (tableWord nbits w)) ((s.withFetchWord nbits w).setPc (s.pc + 1#16)) := by
  have hp : (s.withFetchWord nbits w).readIsDraw (s.withFetchWord nbits w).pc = false := by
    simp only [State.withFetchWord, State.placeNext, State.readIsDraw, State.memWrite_pc]
    cases h : reservedIo s.pc <;> simp
  rw [step_running rfl rfl, State.fetch_plain hp]
  have hc : (s.withFetchWord nbits w).cell (s.withFetchWord nbits w).pc = tableWord nbits w := by
    have := State.memWrite_cell s s.pc (tableWord nbits w) s.pc
    rwa [if_pos rfl] at this
  rw [hc]
  rfl

end Sys2Proof.Machine
end

