-- ==== Sys2Proof/Laws/Units.lean ====
section
/-! SUPPORT. The sign-extension unit bit by bit, and the operand forms as two's-complement sign extension. -/

namespace Sys2Proof.Machine

/-- Every bit of the sign-extension contract's output (R68). -/
theorem sextContract_getLsbD (n : Nat) (f : Word) {i : Nat} (hi : i < 16) :
    (sextContract n f).getLsbD i = if n ≤ i ∧ f.getLsbD (n - 1) = true then true else f.getLsbD i := by
  have hones : ∀ j, (0xFFFF#16).getLsbD j = decide (j < 16) := fun j => BitVec.getLsbD_allOnes
  unfold sextContract
  split
  · rename_i h
    rw [BitVec.getLsbD_or, BitVec.getLsbD_shiftLeft, hones]
    by_cases hn : n ≤ i
    · have : i - n < 16 := by omega
      simp [hi, hn, h, this]
    · simp [hn, h, Nat.lt_of_not_le hn]
  · rename_i h
    simp [h]

/-- On a field of n bits with zeros above it, the contract is two's-complement sign extension. -/
theorem sextContract_eq_signExtend {n : Nat} (h1 : 1 ≤ n) (f : BitVec n) (hn : n ≤ 16) :
    sextContract n (f.setWidth 16) = f.signExtend 16 := by
  refine BitVec.eq_of_getLsbD_eq fun i hi => ?_
  rw [sextContract_getLsbD n _ hi, BitVec.getLsbD_signExtend, BitVec.msb_eq_getLsbD_last]
  have h2 : n - 1 < 16 := by omega
  simp only [BitVec.getLsbD_setWidth, hi, h2, decide_true, Bool.true_and]
  by_cases h : i < n
  · simp [h, Nat.not_le.2 h]
  · simp [h, Nat.le_of_not_lt h]

theorem sext5_eq (f : BitVec 5) : sext5 f = f.signExtend 16 := sextContract_eq_signExtend (by omega) f (by omega)

theorem sext6_eq (f : BitVec 6) : sext6 f = f.signExtend 16 := sextContract_eq_signExtend (by omega) f (by omega)

theorem sext9_eq (f : BitVec 9) : sext9 f = f.signExtend 16 := sextContract_eq_signExtend (by omega) f (by omega)

theorem sext11_eq (f : BitVec 11) : sext11 f = f.signExtend 16 := sextContract_eq_signExtend (by omega) f (by omega)

/-- The PC-relative address (R75). -/
theorem State.pcOff9_eq (s : State) (off9 : BitVec 9) : s.pcOff9 off9 = s.pc + off9.signExtend 16 := by
  rw [State.pcOff9, addressAdder, sext9_eq]

/-- The target of JSR (R75). -/
theorem State.pcOff11_eq (s : State) (off11 : BitVec 11) : s.pcOff11 off11 = s.pc + off11.signExtend 16 := by
  rw [State.pcOff11, addressAdder, sext11_eq]

/-- The base-plus-offset address (R75). -/
theorem State.baseOff6_eq (s : State) (base : Reg) (off6 : BitVec 6) :
    s.baseOff6 base off6 = s.reg base + off6.signExtend 16 := by
  rw [State.baseOff6, addressAdder, sext6_eq]

end Sys2Proof.Machine
end

