-- ==== Sys2Proof/Laws/Exec.lean ====
section
/-! SUPPORT. What the service calls can do, said once: which routine an instruction of the TRAP opcode runs, and the
next states each routine has. Rules over all instructions are proved from these and the update lemmas. -/

namespace Sys2Proof.Machine

/-- GETC and IN, when they have a next state, take a byte from the input or a free draw, echo, and write R0. -/
theorem State.readChar_next {s t : State} {echo : Byte → List Byte} (h : s.readChar echo = .next t) :
    ∃ b i n, t = (({ s with input := i, draws := n } : State).emit (echo b)).writeReg .r0 (b.setWidth 16) := by
  rcases s.readChar_cases echo with ⟨b, i, n, h'⟩ | ⟨_, _, h'⟩
  · rw [h'] at h
    cases h
    exact ⟨b, i, n, rfl⟩
  · rw [h'] at h
    cases h

/-- The next state of PUTS and PUTSP: bytes appended to the trace, and the loop ended or still to finish. -/
theorem State.printString_next {s t : State} {f : StringForm} (h : s.printString f = .next t) :
    ∃ bs n p, (p = none ∨ p = some f) ∧ t = { s with out := s.out ++ bs, draws := n, printing := p } := by
  obtain ⟨bs, n, p, hp, h'⟩ := s.printString_cases f
  rw [h'] at h
  cases h
  exact ⟨bs, n, p, hp, rfl⟩

/-- Which routine an instruction runs: one of the six, the fault of a bad vector, or none, when its opcode is not
TRAP (R105). -/
theorem exec_trap_cases (i : Instr) (s : State) :
    (exec i s = s.trapEntry.getcRoutine ∧ (i = .getc ∨ i = .trap 0x20#8)) ∨
    (exec i s = s.trapEntry.outRoutine ∧ (i = .out ∨ i = .trap 0x21#8)) ∨
    (exec i s = s.trapEntry.putsRoutine ∧ (i = .puts ∨ i = .trap 0x22#8)) ∨
    (exec i s = s.trapEntry.inRoutine ∧ (i = .inChar ∨ i = .trap 0x23#8)) ∨
    (exec i s = s.trapEntry.putspRoutine ∧ (i = .putsp ∨ i = .trap 0x24#8)) ∨
    (exec i s = s.trapEntry.haltRoutine ∧ (i = .halt ∨ i = .trap 0x25#8)) ∨
    (∃ v, i = .trap v ∧ serviceVector v = false ∧
      exec i s = .next (s.trapEntry.raiseFault (.badTrapVector v s.trapEntry.instrAddr))) ∨
    opcodeOfInstr i ≠ .trap := by
  cases i
  case trap v =>
    simp only [exec, execTrap]
    rcases s.trapEntry.trapDispatch_cases v with ⟨rfl, h⟩ | ⟨rfl, h⟩ | ⟨rfl, h⟩ | ⟨rfl, h⟩ | ⟨rfl, h⟩ | ⟨rfl, h⟩ | ⟨h0, h⟩
    iterate 6 simp [h]
    exact .inr (.inr (.inr (.inr (.inr (.inr (.inl ⟨v, rfl, h0, h⟩))))))
  all_goals simp [opcodeOfInstr, exec, execGetc, execOut, execPuts, execIn, execPutsp, execHalt]

/-- The next states of an instruction of the TRAP opcode: a byte read, a byte written, a string printed, the halt, or
the fault of a bad vector, each after R7 is written (R105). -/
theorem exec_trap_next {i : Instr} {s t : State} (hi : opcodeOfInstr i = .trap) (h : exec i s = .next t) :
    (readsConsole i ∧ ∃ b inp n bs, t = (({ s.trapEntry with input := inp, draws := n } : State).emit bs).writeReg .r0
      ((b : Byte).setWidth 16)) ∨
    ((i = .out ∨ i = .trap 0x21#8) ∧ t = s.trapEntry.emit [lowByte (s.trapEntry.reg .r0)]) ∨
    (printsString i ∧ ∃ bs n p, t = { s.trapEntry with out := s.out ++ bs, draws := n, printing := p }) ∨
    (halts i ∧ t = (s.trapEntry.emit Config.haltNotice).haltRun) ∨
    ∃ v, i = .trap v ∧ serviceVector v = false ∧ t = s.trapEntry.raiseFault (.badTrapVector v (s.pc - 1#16)) := by
  rcases exec_trap_cases i s with ⟨h', hi'⟩ | ⟨h', hi'⟩ | ⟨h', hi'⟩ | ⟨h', hi'⟩ | ⟨h', hi'⟩ | ⟨h', hi'⟩ | ⟨v, hi', hv, h'⟩ | hne
  · rw [h'] at h
    obtain ⟨b, inp, n, rfl⟩ := State.readChar_next h
    exact .inl ⟨by rcases hi' with rfl | rfl <;> simp [readsConsole], b, inp, n, _, rfl⟩
  · rw [h'] at h
    cases h
    exact .inr (.inl ⟨hi', rfl⟩)
  · rw [h'] at h
    obtain ⟨bs, n, p, _, rfl⟩ := State.printString_next h
    exact .inr (.inr (.inl ⟨by rcases hi' with rfl | rfl <;> simp [printsString], bs, n, p, rfl⟩))
  · rw [h'] at h
    obtain ⟨b, inp, n, rfl⟩ := State.readChar_next h
    refine .inl ⟨by rcases hi' with rfl | rfl <;> simp [readsConsole], b, inp, n, Config.inPrompt ++ [b], ?_⟩
    simp [State.emit, List.append_assoc]
  · rw [h'] at h
    obtain ⟨bs, n, p, _, rfl⟩ := State.printString_next h
    exact .inr (.inr (.inl ⟨by rcases hi' with rfl | rfl <;> simp [printsString], bs, n, p, rfl⟩))
  · rw [h'] at h
    cases h
    exact .inr (.inr (.inr (.inl ⟨by rcases hi' with rfl | rfl <;> simp [halts], rfl⟩)))
  · rw [h'] at h
    cases h
    exact .inr (.inr (.inr (.inr ⟨v, hi', hv, rfl⟩)))
  · exact absurd hi hne

end Sys2Proof.Machine
end

