-- ==== Sys2Proof/Laws/PerInstr.lean ====
section
/-! SUPPORT. The per-instruction family TableWord: the encoder's word of an instruction matches its row of
spec/opcode_table.json (the row's "match" under its "mask"). -/

namespace Sys2Proof.Laws.TableWord

/-- The "mask" of an instruction's row in spec/opcode_table.json. -/
def mask : Instr → Word
  | .addReg _ _ _ | .addImm _ _ _ | .andReg _ _ _ | .andImm _ _ _ => 0xF020
  | .jsrr _ | .jsr _ => 0xF800
  | .br _ _ | .ld _ _ | .st _ _ | .ldr _ _ _ | .str _ _ _ | .rti _ | .not _ _ | .ldi _ _ | .sti _ _ | .jmp _
  | .res _ | .lea _ _ | .trap _ => 0xF000
  | .getc | .out | .puts | .inChar | .putsp | .halt => 0xF0FF
  | .ret => 0xF1C0
  | .nop _ => 0xFE00

/-- The "match" of an instruction's row in spec/opcode_table.json. -/
def word : Instr → Word
  | .br _ _ => 0x0000
  | .addReg _ _ _ => 0x1000
  | .addImm _ _ _ => 0x1020
  | .ld _ _ => 0x2000
  | .st _ _ => 0x3000
  | .jsrr _ => 0x4000
  | .jsr _ => 0x4800
  | .andReg _ _ _ => 0x5000
  | .andImm _ _ _ => 0x5020
  | .ldr _ _ _ => 0x6000
  | .str _ _ _ => 0x7000
  | .rti _ => 0x8000
  | .not _ _ => 0x9000
  | .ldi _ _ => 0xA000
  | .sti _ _ => 0xB000
  | .jmp _ => 0xC000
  | .res _ => 0xD000
  | .lea _ _ => 0xE000
  | .trap _ => 0xF000
  | .getc => 0xF020
  | .out => 0xF021
  | .puts => 0xF022
  | .inChar => 0xF023
  | .putsp => 0xF024
  | .halt => 0xF025
  | .ret => 0xC1C0
  | .nop _ => 0x0000

/-- The word of `i` shows its row's fixed bits. -/
def Statement (i : Instr) : Prop := encode i &&& mask i = word i

/-! Each format of the encoder under a row's mask: the opcode on top and the format's own fixed bits. -/

theorem encodePcr_fixed (o : Opcode) (a : BitVec 3) (off9 : BitVec 9) :
    encodePcr o a off9 &&& 0xF000 = placed (opcodeNumber o) 12 := by
  ext i hi
  interval_cases i <;> simp [encodePcr, placed]

theorem encodeBase_fixed (o : Opcode) (a b : BitVec 3) (low : BitVec 6) :
    encodeBase o a b low &&& 0xF000 = placed (opcodeNumber o) 12 := by
  ext i hi
  interval_cases i <;> simp [encodeBase, placed]

theorem encodeOpr_fixed (o : Opcode) (dr sr1 sr2 : Reg) :
    encodeOpr o dr sr1 sr2 &&& 0xF020 = placed (opcodeNumber o) 12 := by
  ext i hi
  interval_cases i <;> simp [encodeOpr, encodeBase, placed]

theorem encodeOpi_fixed (o : Opcode) (dr sr1 : Reg) (imm5 : BitVec 5) :
    encodeOpi o dr sr1 imm5 &&& 0xF020 = placed (opcodeNumber o) 12 ||| 0x0020 := by
  ext i hi
  interval_cases i <;> simp [encodeOpi, encodeBase, placed]

theorem encodeLow_fixed (o : Opcode) (low : BitVec 12) :
    encodeLow o low &&& 0xF000 = placed (opcodeNumber o) 12 := by
  ext i hi
  interval_cases i <;> simp [encodeLow, placed]

theorem br (cond : BitVec 3) (off9 : BitVec 9) : Statement (.br cond off9) :=
  encodePcr_fixed .br _ _

theorem addReg (dr sr1 sr2 : Reg) : Statement (.addReg dr sr1 sr2) :=
  encodeOpr_fixed .add _ _ _

theorem addImm (dr sr1 : Reg) (imm5 : BitVec 5) : Statement (.addImm dr sr1 imm5) :=
  encodeOpi_fixed .add _ _ _

theorem ld (dr : Reg) (off9 : BitVec 9) : Statement (.ld dr off9) :=
  encodePcr_fixed .ld _ _

theorem st (sr : Reg) (off9 : BitVec 9) : Statement (.st sr off9) :=
  encodePcr_fixed .st _ _

theorem jsrr (base : Reg) : Statement (.jsrr base) := by
  cases base <;> rfl

theorem jsr (off11 : BitVec 11) : Statement (.jsr off11) := by
  have h : opcodeNumber .jsr = 4#4 := rfl
  unfold Statement encode encodeLow mask word
  rw [h]
  ext i hi
  interval_cases i <;> simp [placed]

theorem andReg (dr sr1 sr2 : Reg) : Statement (.andReg dr sr1 sr2) :=
  encodeOpr_fixed .and _ _ _

theorem andImm (dr sr1 : Reg) (imm5 : BitVec 5) : Statement (.andImm dr sr1 imm5) :=
  encodeOpi_fixed .and _ _ _

theorem ldr (dr base : Reg) (off6 : BitVec 6) : Statement (.ldr dr base off6) :=
  encodeBase_fixed .ldr _ _ _

theorem str (sr base : Reg) (off6 : BitVec 6) : Statement (.str sr base off6) :=
  encodeBase_fixed .str _ _ _

theorem rti (low : BitVec 12) : Statement (.rti low) :=
  encodeLow_fixed .rti _

theorem not (dr sr : Reg) : Statement (.not dr sr) :=
  encodeBase_fixed .not _ _ _

theorem ldi (dr : Reg) (off9 : BitVec 9) : Statement (.ldi dr off9) :=
  encodePcr_fixed .ldi _ _

theorem sti (sr : Reg) (off9 : BitVec 9) : Statement (.sti sr off9) :=
  encodePcr_fixed .sti _ _

theorem jmp (base : Reg) : Statement (.jmp base) :=
  encodeBase_fixed .jmp _ _ _

theorem res (low : BitVec 12) : Statement (.res low) :=
  encodeLow_fixed .res _

theorem lea (dr : Reg) (off9 : BitVec 9) : Statement (.lea dr off9) :=
  encodePcr_fixed .lea _ _

theorem trap (vector : BitVec 8) : Statement (.trap vector) :=
  encodeLow_fixed .trap _

theorem getc : Statement (.getc) := rfl

theorem out : Statement (.out) := rfl

theorem puts : Statement (.puts) := rfl

theorem inChar : Statement (.inChar) := rfl

theorem putsp : Statement (.putsp) := rfl

theorem halt : Statement (.halt) := rfl

theorem ret : Statement (.ret) := rfl

theorem nop (off9 : BitVec 9) : Statement (.nop off9) := by
  have h : opcodeNumber .br = 0#4 := rfl
  unfold Statement encode encodePcr mask word
  rw [h]
  ext i hi
  interval_cases i <;> simp [placed]

end Sys2Proof.Laws.TableWord
end

