-- ==== Sys2Proof/Tests/Slice0.lean ====
section
/-! SUPPORT. The model's own tests: well-formedness, decoding of words written out from the formats of
30_encoding.md R53 and the map of R57, one step of each instruction against the vectors of 95_test_vectors.md, and for
each statement with hypotheses a state or operand that meets them. -/

namespace Sys2Proof.Tests

open Sys2Proof Sys2Proof.Machine

/-! ## Well-formedness: one ill-formed term for each check, and its neighbours -/

theorem test_wf_br_refuses_no_condition : (Instr.br 0b000 5).wf = false ∧ (Instr.br 0b001 5).wf = true := by decide

theorem test_wf_jmp_refuses_r7 : (Instr.jmp .r7).wf = false ∧ (Instr.jmp .r6).wf = true := by decide

theorem test_wf_trap_refuses_service_vectors :
    (Instr.trap 0x20).wf = false ∧ (Instr.trap 0x25).wf = false ∧ (Instr.trap 0x1F).wf = true ∧
      (Instr.trap 0x26).wf = true := by decide

/-! ## Decoding: words written bit by bit, fields in the order of the formats (R53) -/

theorem test_decode_branch :
    decode (0b0000#4 ++ 0b101#3 ++ 0b000000101#9) = .br 0b101 5 ∧
    decode (0b0000#4 ++ 0b000#3 ++ 0b111111111#9) = .nop 0x1FF := by decide

theorem test_decode_add :
    decode (0b0001#4 ++ 0b010#3 ++ 0b001#3 ++ 0b0#1 ++ 0b11#2 ++ 0b011#3) = .addReg .r2 .r1 .r3 ∧
    decode (0b0001#4 ++ 0b010#3 ++ 0b001#3 ++ 0b1#1 ++ 0b10000#5) = .addImm .r2 .r1 0b10000 := by decide

theorem test_decode_and :
    decode (0b0101#4 ++ 0b011#3 ++ 0b001#3 ++ 0b0#1 ++ 0b00#2 ++ 0b010#3) = .andReg .r3 .r1 .r2 ∧
    decode (0b0101#4 ++ 0b010#3 ++ 0b110#3 ++ 0b1#1 ++ 0b00101#5) = .andImm .r2 .r6 5 := by decide

theorem test_decode_not :
    decode (0b1001#4 ++ 0b001#3 ++ 0b000#3 ++ 0b111111#6) = .not .r1 .r0 ∧
    decode (0b1001#4 ++ 0b001#3 ++ 0b000#3 ++ 0b010101#6) = .not .r1 .r0 := by decide

theorem test_decode_pc_relative :
    decode (0b0010#4 ++ 0b001#3 ++ 0b000000111#9) = .ld .r1 7 ∧
    decode (0b1010#4 ++ 0b011#3 ++ 0b100000000#9) = .ldi .r3 0x100 ∧
    decode (0b1110#4 ++ 0b101#3 ++ 0b011111111#9) = .lea .r5 0xFF ∧
    decode (0b0011#4 ++ 0b111#3 ++ 0b111111111#9) = .st .r7 0x1FF ∧
    decode (0b1011#4 ++ 0b100#3 ++ 0b000000010#9) = .sti .r4 2 := by decide

theorem test_decode_base_offset :
    decode (0b0110#4 ++ 0b001#3 ++ 0b010#3 ++ 0b100000#6) = .ldr .r1 .r2 0x20 ∧
    decode (0b0111#4 ++ 0b101#3 ++ 0b100#3 ++ 0b000001#6) = .str .r5 .r4 1 := by decide

theorem test_decode_jump :
    decode (0b1100#4 ++ 0b101#3 ++ 0b010#3 ++ 0b111000#6) = .jmp .r2 ∧
    decode (0b1100#4 ++ 0b000#3 ++ 0b111#3 ++ 0b000000#6) = .ret ∧
    decode (0b0100#4 ++ 0b1#1 ++ 0b10000000000#11) = .jsr 0x400 ∧
    decode (0b0100#4 ++ 0b0#1 ++ 0b11#2 ++ 0b011#3 ++ 0b101010#6) = .jsrr .r3 := by decide

theorem test_decode_trap :
    decode (0b1111#4 ++ 0b0000#4 ++ 0x20#8) = .getc ∧ decode (0b1111#4 ++ 0b1010#4 ++ 0x21#8) = .out ∧
    decode (0b1111#4 ++ 0b0000#4 ++ 0x22#8) = .puts ∧ decode (0b1111#4 ++ 0b0000#4 ++ 0x23#8) = .inChar ∧
    decode (0b1111#4 ++ 0b0000#4 ++ 0x24#8) = .putsp ∧ decode (0b1111#4 ++ 0b1111#4 ++ 0x25#8) = .halt ∧
    decode (0b1111#4 ++ 0b0000#4 ++ 0x1F#8) = .trap 0x1F ∧ decode (0b1111#4 ++ 0b0000#4 ++ 0x26#8) = .trap 0x26 := by
  decide

theorem test_decode_reserved :
    decode (0b1000#4 ++ 0x123#12) = .rti 0x123 ∧ decode (0b1101#4 ++ 0xFFF#12) = .res 0xFFF := by decide

/-- Canonical words (R64): the encodings of the scenarios S1, S2, S3 and of vectors X-D4, J2 and B8. -/
theorem test_encode_canonical :
    encode (.addReg .r2 .r1 .r3) = 0x1443 ∧ encode (.andImm .r2 .r1 5) = 0x5465 ∧ encode .halt = 0xF025 ∧
    encode (.not .r2 .r2) = 0x94BF ∧ encode .ret = 0xC1C0 ∧ encode (.nop 0) = 0x0000 ∧
    encode (.jsr 2) = 0x4802 ∧ encode (.jsrr .r3) = 0x40C0 := by decide

/-! ## One step: the word `w` at address `pc`, some registers set, and what is then read from the next state -/

/-- The machine about to run the word `w` at `pc`, with the listed registers and cells set. -/
def ready (pc w : Word) (regs : List (Reg × Word)) (cells : List (Word × Word)) : State :=
  (cells.foldl (fun s c => s.memWrite c.1 c.2)
    (regs.foldl (fun s c => s.writeReg c.1 c.2) (State.resetWith .z pc .plain))).placeNext w

/-- What `view` shows of the next state of one step. -/
def after {α : Type} (s : State) (view : State → α) : Option α :=
  match step s with
  | .next t => some (view t)
  | .fault _ | .refused _ => none

/-- A destination register and the flag. -/
def regAndFlag (r : Reg) (t : State) : Word × Flag := (t.reg r, t.flag)

/-- O2: silent wrap. -/
theorem test_add_register_wraps :
    after (ready 0x3000 0x1642 [(.r1, 0xFFFF), (.r2, 0x0001)] []) (regAndFlag .r3) = some (0x0000, .z) := by decide

/-- O3: the destination is both sources. -/
theorem test_add_register_same :
    after (ready 0x3000 0x1904 [(.r4, 0x8000)] []) (regAndFlag .r4) = some (0x0000, .z) := by decide

/-- O4: signed overflow is silent. -/
theorem test_add_immediate_overflow :
    after (ready 0x3000 0x1261 [(.r1, 0x7FFF)] []) (regAndFlag .r1) = some (0x8000, .n) := by decide

/-- O5: the most negative immediate. -/
theorem test_add_immediate_negative :
    after (ready 0x3000 0x1270 [(.r1, 0x0005)] []) (regAndFlag .r1) = some (0xFFF5, .n) := by decide

/-- O7. -/
theorem test_and_register :
    after (ready 0x3000 0x5642 [(.r1, 0x8001), (.r2, 0x8000)] []) (regAndFlag .r3) = some (0x8000, .n) := by decide

/-- O8: the immediate sign-extends. -/
theorem test_and_immediate :
    after (ready 0x3000 0x547F [(.r1, 0x1234)] []) (regAndFlag .r2) = some (0x1234, .p) := by decide

/-- O12. -/
theorem test_not_same : after (ready 0x3000 0x94BF [(.r2, 0x0004)] []) (regAndFlag .r2) = some (0xFFFB, .n) := by decide

/-- O14. -/
theorem test_not : after (ready 0x3000 0x9D7F [(.r5, 0x8000)] []) (regAndFlag .r6) = some (0x7FFF, .p) := by decide

/-- B1 and B9: taken, and taken across the top of the address space. -/
theorem test_branch_taken :
    after (ready 0x3000 0x0403 [] []) (·.pc) = some 0x3004 ∧ after (ready 0xFFFF 0x0E01 [] []) (·.pc) = some 0x0001 := by
  decide

/-- B3 and B5: not taken under Z, and the most negative offset under N. -/
theorem test_branch_flag :
    after (ready 0x3000 0x0A05 [] []) (·.pc) = some 0x3001 ∧
    after { ready 0x3000 0x0900 [] [] with flag := .n } (·.pc) = some 0x2F01 := by decide

/-- B8; and B10, where no branch is taken under FLAG_RESET = NONE. -/
theorem test_nop_and_branch_without_flag :
    after (ready 0x3000 0x0000 [] []) (·.pc) = some 0x3001 ∧
    after ((State.resetWith .none 0x3000 .plain).placeNext 0x0E05) (·.pc) = some 0x3001 := by decide

/-- M3: a load of its own word. -/
theorem test_ld_own_word : after (ready 0x3000 0x21FF [] []) (regAndFlag .r0) = some (0x21FF, .p) := by decide

/-- M4: double indirection. -/
theorem test_ldi :
    after (ready 0x3000 0xA602 [] [(0x3003, 0xFFFF), (0xFFFF, 0x8000)]) (regAndFlag .r3) = some (0x8000, .n) := by
  decide

/-- M6: the most negative offset. -/
theorem test_ldr :
    after (ready 0x3000 0x62A0 [(.r2, 0x4000)] [(0x3FE0, 0x7FFF)]) (regAndFlag .r1) = some (0x7FFF, .p) := by decide

/-- M7: the address wraps. -/
theorem test_ldr_wraps :
    after (ready 0x3000 0x6081 [(.r2, 0xFFFF)] [(0x0000, 0x1234)]) (regAndFlag .r0) = some (0x1234, .p) := by decide

/-- M8 and M9: the incremented PC, also where it wraps. -/
theorem test_lea :
    after (ready 0x0000 0xE100 [] []) (regAndFlag .r0) = some (0xFF01, .n) ∧
    after (ready 0xFFFF 0xE200 [] []) (regAndFlag .r1) = some (0x0000, .z) := by decide

/-- M12: a store over the store itself. -/
theorem test_st_own_word : after (ready 0x3000 0x31FF [] []) (fun t => (t.cell 0x3000, t.pc)) = some (0x0000, 0x3001) := by
  decide

/-- M10: the pointer cell stays. -/
theorem test_sti :
    after (ready 0x3000 0xB202 [(.r1, 0x1234)] [(0x3003, 0x4000)]) (fun t => (t.cell 0x4000, t.cell 0x3003)) =
      some (0x1234, 0x4000) := by decide

/-- M13: the address wraps. -/
theorem test_str_wraps :
    after (ready 0x3000 0x7B3F [(.r5, 0xBEEF)] []) (fun t => (t.cell 0xFFFF, t.flag)) = some (0xBEEF, .z) := by decide

/-- M14: the base is the source. -/
theorem test_str_same : after (ready 0x3000 0x76C0 [(.r3, 0x5000)] []) (·.cell 0x5000) = some 0x5000 := by decide

/-- J1. -/
theorem test_jmp : after (ready 0x3000 0xC080 [(.r2, 0x1234)] []) (·.pc) = some 0x1234 := by decide

/-- J2. -/
theorem test_ret : after (ready 0x3000 0xC1C0 [(.r7, 0x3003)] []) (·.pc) = some 0x3003 := by decide

/-- J4 and J6. -/
theorem test_jsr :
    after (ready 0x3000 0x4C00 [] []) (fun t => (t.reg .r7, t.pc)) = some (0x3001, 0x2C01) ∧
    after (ready 0xFFFF 0x4801 [] []) (fun t => (t.reg .r7, t.pc)) = some (0x0000, 0x0001) := by decide

/-- J8: the old R7 is the target. -/
theorem test_jsrr_r7 :
    after (ready 0x3000 0x41C0 [(.r7, 0x5000)] []) (fun t => (t.reg .r7, t.pc)) = some (0x3001, 0x5000) := by decide

/-- T2: zero-extended, nothing output, R7 written. -/
theorem test_getc :
    after { ready 0x3000 0xF020 [] [] with input := [0xFF, 0x01] } (fun t => (t.reg .r0, t.reg .r7, t.out, t.input)) =
      some (0x00FF, 0x3001, [], [0x01]) := by decide

/-- T4. -/
theorem test_out :
    after (ready 0x3000 0xF021 [(.r0, 0x0141)] []) (fun t => (t.out, t.reg .r0)) = some ([0x41], 0x0141) := by decide

/-- T5: the low byte of each word. -/
theorem test_puts :
    after (ready 0x3000 0xF022 [(.r0, 0x4000)] [(0x4000, 0x0048), (0x4001, 0x4142)]) (·.out) = some [0x48, 0x42] := by
  decide

/-- T7; the prompt is whatever IN_PROMPT is. -/
theorem test_in :
    after { ready 0x3000 0xF023 [] [] with input := [0x7A] } (fun t => (t.out, t.reg .r0)) =
      some (Config.inPrompt ++ [0x7A], 0x007A) := rfl

/-- T8 and T9: a zero high byte is skipped, a zero low byte is not. -/
theorem test_putsp :
    after (ready 0x3000 0xF024 [(.r0, 0x4000)] [(0x4000, 0x6548), (0x4001, 0x006C)]) (·.out) =
      some [0x48, 0x65, 0x6C] ∧
    after (ready 0x3000 0xF024 [(.r0, 0x4000)] [(0x4000, 0x4100)]) (·.out) = some [0x00, 0x41] := by decide

/-- T10; the notice is whatever HALT_NOTICE is. -/
theorem test_halt :
    after (ready 0x3006 0xF025 [] []) (fun t => (t.reg .r7, t.run, t.pc, t.out)) =
      some (0x3007, .halted, 0x3007, Config.haltNotice) := rfl

/-- T11. -/
theorem test_trap_bad_vector :
    after (ready 0x3000 0xF026 [] []) (fun t => (t.reg .r7, t.run, t.pc)) =
      some (0x3001, .faulted (.badTrapVector 0x26 0x3000), 0x3001) := by decide

/-- T13: nothing else is written. -/
theorem test_rti :
    after (ready 0x3003 0x8000 [] []) (fun t => (t.reg .r7, t.run, t.pc)) =
      some (0x0000, .faulted (.reservedOpcode 0x8 0x8000 0x3003), 0x3004) := by decide

/-- T14. -/
theorem test_res :
    after (ready 0x4000 0xD123 [] []) (fun t => (t.run, t.pc)) =
      some (.faulted (.reservedOpcode 0xD 0xD123 0x4000), 0x4001) := by decide

/-- X4: a reserved I/O address is memory under PLAIN. -/
theorem test_plain_io_read :
    after (ready 0x3000 0x6680 [(.r2, 0xFE00)] [(0xFE00, 0x8000)]) (regAndFlag .r3) = some (0x8000, .n) := by decide

/-- X5: under ANY the word is the free draw. -/
theorem test_any_io_read :
    after { ready 0x3000 0x6682 [(.r2, 0xFE00)] [] with mmioMode := .any } (fun t => (t.reg .r3, t.draws)) =
      some (mmioWord 0, 1) := rfl

/-- X1: big-endian words from the load address. -/
theorem test_loader :
    (launch .z .plain none [0x30, 0x00, 0x12, 0x34, 0xAB, 0xCD]).map (fun s => (s.cell 0x3000, s.cell 0x3001, s.pc)) =
      some (0x1234, 0xABCD, 0x3000) := by decide

/-- The host's placing of a word: the table's bits are the word's, and it is the next instruction run. -/
theorem test_table_word :
    decodeTableWord 16 0x1465 = some (.addImm .r2 .r1 5) ∧
    after (State.reset.withFetchWord 16 0x1465) (regAndFlag .r2) = some (0x0005, .p) := by decide

/-! ## Witnesses: for each statement with hypotheses, values that meet them, at the ends of their ranges -/

/-- LoaderPlacesImage: an image that just fits below the top of memory, and one word more (X2). -/
theorem witness_loader :
    imageWords [0xFF, 0xFF, 0x12, 0x34] = some [0xFFFF, 0x1234] ∧ [(0x1234 : Word)].length ≤ 65536 - (0xFFFF : Word).toNat ∧
    imageWords [0xFF, 0xFF, 0x12, 0x34, 0x56, 0x78] = some [0xFFFF, 0x1234, 0x5678] ∧
    65536 - (0xFFFF : Word).toNat < [(0x1234 : Word), 0x5678].length ∧
    (launch .z .plain none [0xFF, 0xFF, 0x12, 0x34]).isSome ∧
    launch .z .plain none [0xFF, 0xFF, 0x12, 0x34, 0x56, 0x78] = none := by decide

/-- CanonicalMemoryIsItsCells: a canonical memory with both end cells listed. -/
theorem witness_canonical : Memory.wf [(0, 0x0001), (65535, 0x8000)] ∧ ¬ Memory.wf [(0, 0x0000)] ∧
    ¬ Memory.wf [(1, 0x0001), (0, 0x0001)] ∧ ¬ Memory.wf [(65536, 0x0001)] := by decide

/-- MemReadPlainOrDraw: each clause at the reserved addresses and beside them. -/
theorem witness_mem_read :
    State.reset.mmioMode = .plain ∧ (0xFE01 : Word).toNat ∉ [0xFE00, 0xFE02, 0xFE04, 0xFE06] ∧
    (0xFE07 : Word).toNat ∉ [0xFE00, 0xFE02, 0xFE04, 0xFE06] ∧ (State.resetWith .z 0 .any).mmioMode = .any ∧
    (0xFE00 : Word).toNat ∈ [0xFE00, 0xFE02, 0xFE04, 0xFE06] ∧
    (0xFE06 : Word).toNat ∈ [0xFE00, 0xFE02, 0xFE04, 0xFE06] := by decide

/-- SignExtensionUnit: X-S1, X-S3, X-S12, X-S13, X-S15, X-S16. -/
theorem witness_sext :
    sextUnit 5 0x001F = some 0xFFFF ∧ sextUnit 5 0x000F = some 0x000F ∧ sextUnit 16 0x8000 = some 0x8000 ∧
    sextUnit 1 0x0001 = some 0xFFFF ∧ sextUnit 5 0x0025 = some 0x0025 ∧ sextUnit 0 0x0001 = none ∧
    sextUnit 17 0x0001 = none := by decide

/-- PortsAgreeWithAccessors: inputs with every enable clear. -/
theorem witness_ports :
    State.reset.regPortsWrite ⟨0, 0, false, 7, 0xFFFF, false, 0xFFFF, false, 0b100⟩ = State.reset ∧
    State.reset.memPortsWrite ⟨0, false, 0, 0xFFFF⟩ = State.reset ∧
    (State.reset.regPortsWrite ⟨0, 0, true, 7, 0xFFFF, false, 0xFFFF, true, 0b100⟩).reg .r7 = 0xFFFF := by decide

/-- DecodeEncodeAgree: well-formed terms of the three checked forms. -/
theorem witness_decode_encode :
    (Instr.br 0b111 0x1FF).wf ∧ (Instr.jmp .r0).wf ∧ (Instr.trap 0xFF).wf ∧ (Instr.addImm .r7 .r7 0x1F).wf := by decide

/-- IgnoredBitsAreIgnored: words that differ in ignored bits only (X-D1, X-D2), and two RTI words. -/
theorem witness_ignored_bits :
    (0x1443 ^^^ 0x145B) &&& significantBits 0x1443 = 0 ∧ (0x8000 ^^^ 0x8FFF) &&& significantBits 0x8000 = 0 ∧
    (0xF025 ^^^ 0xFF25) &&& significantBits 0xF025 = 0 := by decide

/-- StepRunsDecodedInstruction: a state for each clause, the second with PC at a reserved address under ANY. -/
theorem witness_step :
    (ready 0x3000 0x1465 [] []).run = .running ∧ (ready 0x3000 0x1465 [] []).printing = none ∧
    (ready 0x3000 0x1465 [] []).readIsDraw (ready 0x3000 0x1465 [] []).pc = false ∧
    decode ((ready 0x3000 0x1465 [] []).cell (ready 0x3000 0x1465 [] []).pc) = .addImm .r2 .r1 5 ∧
    (State.resetWith .z 0xFE00 .any).run = .running ∧ (State.resetWith .z 0xFE00 .any).printing = none ∧
    (State.resetWith .z 0xFE00 .any).readIsDraw (State.resetWith .z 0xFE00 .any).pc = true := by decide

/-- RunStateTransitions: T15 for both ends, and steps that end RUNNING and FAULTED (HALT: `test_halt`). -/
theorem witness_run_state :
    step State.reset.haltRun = .fault .halted ∧
    step (State.reset.raiseFault (.badTrapVector 0x26 0)) = .fault .faulted ∧
    after State.reset (·.run) = some .running ∧
    after (ready 0x3000 0xF026 [] []) (·.run) = some (.faulted (.badTrapVector 0x26 0x3000)) := ⟨rfl, rfl, rfl, rfl⟩

/-- InputWaits and OnlyWaitingForInputStops: a console that has ended. -/
theorem witness_input_wait :
    exec .getc { State.reset with inputEnded := true } =
      .fault (.inputWait ({ State.reset with inputEnded := true } : State).trapEntry) ∧
    exec (.trap 0x23) { State.reset with inputEnded := true } =
      .fault (.inputWait (({ State.reset with inputEnded := true } : State).trapEntry.emit Config.inPrompt)) := ⟨rfl, rfl⟩

/-- GetcReadsByte and InPromptsEchoesReads: a console with a byte held, and one that answers freely. -/
theorem witness_console :
    ({ State.reset with input := [0x41] } : State).input = 0x41 :: [] ∧ State.reset.input = [] ∧
    State.reset.inputEnded = false ∧
    (∃ t, exec .getc State.reset = .next t ∧ t.reg .r0 = (Config.inputByte 0).setWidth 16) ∧
    ∃ t, exec (.trap 0x23) State.reset = .next t ∧ t.out = Config.inPrompt ++ [Config.inputByte 0] :=
  ⟨rfl, rfl, rfl, ⟨_, rfl, rfl⟩, ⟨_, rfl, rfl⟩⟩

/-- StoreIsSeenByNextFetch: program P7 at its ST (with the offset 0). -/
theorem witness_store_fetch :
    (ready 0x3001 0x3200 [(.r1, 0xF025)] [(0x3002, 0x8000)]).run = .running ∧
    (ready 0x3001 0x3200 [(.r1, 0xF025)] [(0x3002, 0x8000)]).printing = none ∧
    (ready 0x3001 0x3200 [(.r1, 0xF025)] [(0x3002, 0x8000)]).mmioMode = .plain ∧
    decode ((ready 0x3001 0x3200 [(.r1, 0xF025)] [(0x3002, 0x8000)]).cell 0x3001) = .st .r1 0 ∧
    after (ready 0x3001 0x3200 [(.r1, 0xF025)] [(0x3002, 0x8000)]) (fun t => decode (t.cell t.pc)) = some .halt := by
  decide

/-- The statements about one instruction's words: a word that meets each of their hypotheses. -/
theorem witness_words :
    (opcodeOf ((0x1443 : Word).extractLsb' 12 4) = .add ∧ (0x1443 : Word).getLsbD 5 = false) ∧
    (opcodeOf ((0x1465 : Word).extractLsb' 12 4) = .add ∧ (0x1465 : Word).getLsbD 5 = true) ∧
    (opcodeOf ((0x5642 : Word).extractLsb' 12 4) = .and ∧ (0x5642 : Word).getLsbD 5 = false) ∧
    (opcodeOf ((0x547F : Word).extractLsb' 12 4) = .and ∧ (0x547F : Word).getLsbD 5 = true) ∧
    (opcodeOf ((0x4802 : Word).extractLsb' 12 4) = .jsr ∧ (0x4802 : Word).getLsbD 11 = true) ∧
    (opcodeOf ((0x40C0 : Word).extractLsb' 12 4) = .jsr ∧ (0x40C0 : Word).getLsbD 11 = false) ∧
    opcodeOf ((0x94BF : Word).extractLsb' 12 4) = .not ∧ opcodeOf ((0x2207 : Word).extractLsb' 12 4) = .ld ∧
    opcodeOf ((0xA602 : Word).extractLsb' 12 4) = .ldi ∧ opcodeOf ((0x62A0 : Word).extractLsb' 12 4) = .ldr ∧
    opcodeOf ((0xE100 : Word).extractLsb' 12 4) = .lea ∧ opcodeOf ((0x31FF : Word).extractLsb' 12 4) = .st ∧
    opcodeOf ((0xB202 : Word).extractLsb' 12 4) = .sti ∧ opcodeOf ((0x7B3F : Word).extractLsb' 12 4) = .str ∧
    opcodeOf ((0x0403 : Word).extractLsb' 12 4) = .br ∧ opcodeOf ((0xC080 : Word).extractLsb' 12 4) = .jmp ∧
    opcodeOf ((0x8000 : Word).extractLsb' 12 4) = .rti ∧ opcodeOf ((0xD123 : Word).extractLsb' 12 4) = .res ∧
    opcodeOf ((0xF01F : Word).extractLsb' 12 4) = .trap := by decide

/-- TrapDispatchAndBadVector: the vectors at the ends of the two ranges outside the six. -/
theorem witness_bad_vectors :
    ((0x00 : BitVec 8).toNat < 0x20 ∨ 0x25 < (0x00 : BitVec 8).toNat) ∧
    ((0x1F : BitVec 8).toNat < 0x20 ∨ 0x25 < (0x1F : BitVec 8).toNat) ∧
    ((0x26 : BitVec 8).toNat < 0x20 ∨ 0x25 < (0x26 : BitVec 8).toNat) ∧
    ((0xFF : BitVec 8).toNat < 0x20 ∨ 0x25 < (0xFF : BitVec 8).toNat) ∧
    ¬((0x20 : BitVec 8).toNat < 0x20 ∨ 0x25 < (0x20 : BitVec 8).toNat) ∧
    ¬((0x25 : BitVec 8).toNat < 0x20 ∨ 0x25 < (0x25 : BitVec 8).toNat) := by decide

/-- PutsWritesString and PutspWritesPackedString: a string of two words, and the empty one (T5, T6). -/
theorem witness_string :
    StringAtR0 (ready 0x3000 0xF022 [(.r0, 0x4000)] [(0x4000, 0x0048), (0x4001, 0x4142)]) 2 ∧
    StringAtR0 (ready 0x3000 0xF022 [(.r0, 0x4000)] []) 0 := by
  unfold StringAtR0
  decide

/-- Whole-machine rules: for each kind of instruction they speak of, one that has a next state. -/
theorem witness_next_states :
    (∃ t, exec (.ld .r1 0) State.reset = .next t ∧ flagUpdating (.ld .r1 0) = true) ∧
    (∃ t, exec (.st .r1 0) State.reset = .next t ∧ flagUpdating (.st .r1 0) = false) ∧
    (∃ t, exec .getc State.reset = .next t) ∧ (∃ t, exec .puts State.reset = .next t) ∧
    (∃ t, exec .halt State.reset = .next t) ∧
    (∃ t, exec (.trap 0x26) State.reset = .next t ∧ t.run = .faulted (.badTrapVector 0x26 0xFFFF)) ∧
    ∃ t, exec (.rti 0) State.reset = .next t ∧ t.run = .faulted (.reservedOpcode 0x8 0x8000 0xFFFF) :=
  ⟨⟨_, rfl, rfl⟩, ⟨_, rfl, rfl⟩, ⟨_, rfl⟩, ⟨_, rfl⟩, ⟨_, rfl⟩, ⟨_, rfl, rfl⟩, ⟨_, rfl, rfl⟩⟩

/-- MemoryWriters: a cell beside the stored one, and a cell where nothing is stored. -/
theorem witness_store_address :
    storeAddress (.st .r1 0x1FF) State.reset = some 0xFFFF ∧ storeAddress (.st .r1 0x1FF) State.reset ≠ some 0x0000 ∧
    storeAddress (.ld .r1 0) State.reset = none := by decide

/-- StepKeepsInvariant: the reset state meets the invariant and has a next state, and so does a state whose step
halts. -/
theorem witness_invariant :
    Inv State.reset ∧ (∃ t, step State.reset = .next t) ∧ Inv (State.reset.withFetchWord 16 0xF025) ∧
    ∃ t, step (State.reset.withFetchWord 16 0xF025) = .next t ∧ t.run = .halted := by
  refine ⟨⟨by decide, by decide, trivial, fun h => absurd rfl h⟩, ⟨_, rfl⟩,
    ⟨by decide, by decide, trivial, fun h => absurd rfl h⟩, ⟨_, rfl, rfl⟩⟩

/-- JumpToRegister, OutWritesLowByte, HaltEndsRun and ReservedOpcodesFault: each form they name has a next state. -/
theorem witness_forms :
    (∃ t, exec (.jmp .r2) State.reset = .next t) ∧ (∃ t, exec .ret State.reset = .next t) ∧
    (∃ t, exec .out State.reset = .next t) ∧ (∃ t, exec (.trap 0x21) State.reset = .next t) ∧
    (∃ t, exec .halt State.reset = .next t) ∧ (∃ t, exec (.trap 0x25) State.reset = .next t) ∧
    (∃ t, exec .putsp State.reset = .next t) ∧ (∃ t, exec (.trap 0x24) State.reset = .next t) ∧
    ∃ t, exec (.res 0xFFF) State.reset = .next t :=
  ⟨⟨_, rfl⟩, ⟨_, rfl⟩, ⟨_, rfl⟩, ⟨_, rfl⟩, ⟨_, rfl⟩, ⟨_, rfl⟩, ⟨_, rfl⟩, ⟨_, rfl⟩, ⟨_, rfl⟩⟩

/-- FlagReflectsLastUpdate: a step that runs ADD, then one that runs the zero word (NOP) after it. -/
theorem witness_quiet_steps :
    ∃ t u, stepUpdatesFlag (ready 0x3000 0x1465 [] []) = true ∧ step (ready 0x3000 0x1465 [] []) = .next t ∧
      QuietSteps t u ∧ u.pc = 0x3002 :=
  ⟨_, _, rfl, rfl, .more .start rfl rfl, rfl⟩

/-- NegateSubtractOr: registers that meet its hypotheses. -/
theorem witness_idioms : Reg.r2 ≠ Reg.r1 ∧ Reg.r0 ≠ Reg.r7 := by decide

/-- PutsWritesString and PutspWritesPackedString, second clause: a call whose loop ends. -/
theorem witness_loop_returns :
    State.reset.printing = none ∧ (∃ t, exec .puts State.reset = .next t ∧ t.printing = none) ∧
    ∃ t, exec (.trap 0x24) State.reset = .next t ∧ t.printing = none := ⟨rfl, ⟨_, rfl, rfl⟩, ⟨_, rfl, rfl⟩⟩

/-- OnlyWaitingForInputStops: a step that fetches GETC from a console that has ended waits, and has no next state. -/
theorem witness_step_waits :
    (({ ready 0x3000 0xF020 [] [] with inputEnded := true } : State).run = .running ∧
      ({ ready 0x3000 0xF020 [] [] with inputEnded := true } : State).fetch.1 = .getc) ∧
    after { ready 0x3000 0xF020 [] [] with inputEnded := true } (·.pc) = none ∧
    after { ready 0x3000 0xF020 [] [] with inputEnded := false } (·.pc) = some 0x3001 := by decide

/-- A step in a string loop does not fetch: it reads on from R0 (the bytes of T5). -/
theorem test_resume_string :
    after { ready 0x3000 0x1465 [(.r0, 0x4000)] [(0x4000, 0x0048), (0x4001, 0x4142)] with printing := some .puts }
      (fun t => (t.out, t.printing, t.pc)) = some ([0x48, 0x42], none, 0x3000) := by decide

/-- OnlyWaitingForInputStops, last clause: the zero word at the top of memory. -/
theorem test_zero_word_wraps : after (State.resetWith .z 0xFFFF .plain) (·.pc) = some 0x0000 := by decide

/-! ## Witness of a string that does not end -/

/-- Reading a listed address of a list that holds one word throughout. -/
theorem read_constant (v : Word) (l : List Nat) (a : Nat) (h : a ∈ l) :
    Memory.read (l.map (fun b => (b, v))) a = v := by
  induction l with
  | nil => simp at h
  | cons b l ih =>
    by_cases hb : a = b
    · simp [Memory.read, hb]
    · simp [Memory.read, hb, ih ((List.mem_cons.1 h).resolve_left hb)]

/-- There is a memory with 0x0001 in every cell. -/
theorem exists_full_memory : ∃ m : Memory, ∀ a : Word, m.read a.toNat = 0x0001#16 :=
  ⟨(List.range (2 ^ 16)).map (fun b => (b, 0x0001#16)), fun a => read_constant _ _ _ (List.mem_range.2 a.isLt)⟩

/-- A scan that meets no zero word reads on to the end of its lap. -/
theorem scan_goes_on (f : StringForm) (fuel : Nat) (a : Word) (s : State) (hm : s.mmioMode = .plain)
    (hc : ∀ b : Word, s.cell b = 0x0001#16) : (scanString f fuel a s).printing = some f := by
  induction fuel generalizing a s with
  | zero => rfl
  | succ fuel ih =>
    rw [scanString_go (by simp [State.readIsDraw, hm]) (by rw [hc]; decide)]
    exact ih _ _ hm hc

/-- A loop over cells that hold no zero word, with plain reads, never ends. -/
theorem loop_never_ends (bytesOf : Word → List Byte) (a : Word) (s u : State) (hm : s.mmioMode = .plain)
    (hc : ∀ b : Word, s.cell b = 0x0001#16) : ¬StringLoop bytesOf a s u := by
  intro h
  induction h with
  | stop hz =>
    rw [State.memRead_plain (by simp [State.readIsDraw, hm])] at hz
    simp [hc] at hz
  | more _ _ ih => exact ih (by simpa using hm) (by simpa using hc)

/-- StringHangsWithoutZeroWord: a state that meets the hypotheses of its clauses, and PUTS begun in it. -/
theorem witness_hang : ∃ s : State, printsString .puts ∧ s.mmioMode = .plain ∧ s.run = .running ∧
    s.printing = some .puts ∧ (¬∃ u, StringLoop (stringBytes .puts) (s.reg .r0) s u) ∧
    ∃ t, exec .puts s = .next t ∧ t.printing = some .puts := by
  obtain ⟨m, hm⟩ := exists_full_memory
  refine ⟨{ State.reset with mem := m, printing := some .puts }, trivial, rfl, rfl, rfl, ?_, ?_⟩
  · exact fun ⟨u, h⟩ => loop_never_ends _ _ { State.reset with mem := m, printing := some .puts } u rfl (fun b => hm b) h
  · generalize hs : ({ State.reset with mem := m, printing := some .puts } : State) = s
    have h1 : s.mmioMode = .plain := by rw [← hs]; rfl
    have h2 : ∀ b : Word, s.cell b = 0x0001#16 := by rw [← hs]; exact hm
    exact ⟨_, rfl, scan_goes_on .puts s.trapEntry.scanBound _ s.trapEntry h1 h2⟩

end Sys2Proof.Tests
end

/-! SUPPORT and PROOFS of the family 10_state: what each instruction does to Flag, who reads it, and the reset
registers. -/

namespace Sys2Proof.Machine

/-! ## The flag updater (R71) -/

/-- The updater's flag shows the sign of its word (R71). -/
theorem flagMatches_flagOf (v : Word) : FlagMatches v (flagOf v) := by
  have hzero : v = 0x0000#16 ↔ v.toInt = 0 := by rw [← BitVec.toInt_inj]; rfl
  have hneg : v.getLsbD 15 = true ↔ v.toInt < 0 := by
    rw [← BitVec.msb_eq_getLsbD_last (x := v), BitVec.msb_eq_toInt, decide_eq_true_iff]
  unfold flagOf
  split
  · have h := hzero.1 ‹_›
    simp [FlagMatches, h]
  · split
    · have h := hneg.1 ‹_›
      simp [FlagMatches, h, h.ne, h.le]
    · have hne := mt hzero.2 ‹_›
      have hnn := mt hneg.2 ‹_›
      have hpos : 0 < v.toInt := by omega
      simp [FlagMatches, hpos, hpos.ne', hpos.le]

/-- Z does not show the sign of a word that is not zero. -/
theorem not_flagMatches_z {v : Word} (hv : v ≠ 0) : ¬FlagMatches v .z := fun ⟨hz, _, _⟩ =>
  hv (BitVec.toInt_inj.1 (hz.1 rfl))

/-- No BR is taken with cond = 000, whatever Flag is (R65). -/
@[simp] theorem branchTaken_zero (f : Flag) : branchTaken 0b000#3 f = false := by cases f <;> rfl

/-! ## Who writes Flag (R25) -/

/-- LDI is a load through the word its first read gives; it too writes DR and Flag and moves the counter of draws at
most (R92). -/
theorem execLdi_spec (dr : Reg) (off9 : BitVec 9) (s : State) :
    ∃ v n, execLdi dr off9 s = .next (({ s with draws := n } : State).writeDest dr v) := by
  obtain ⟨k, hk⟩ := s.memRead_state (s.pcOff9 off9)
  obtain ⟨n, hn⟩ := (s.memRead (s.pcOff9 off9)).2.loadInto_spec dr (s.memRead (s.pcOff9 off9)).1
  exact ⟨_, n, by rw [execLdi, hn, hk]⟩

/-- A flag-updating instruction writes a word to its DR and sets Flag from it, moves the counter of draws at most, and
always has a next state (R25, R72). -/
theorem exec_flagUpdating {i : Instr} (hi : flagUpdating i = true) (s : State) :
    ∃ dr v n, regsWritten i = [dr] ∧ exec i s = .next (({ s with draws := n } : State).writeDest dr v) := by
  cases i with
  | addReg dr | addImm dr | andReg dr | andImm dr | not dr | lea dr => exact ⟨dr, _, s.draws, rfl, rfl⟩
  | ld dr off9 =>
    obtain ⟨n, hn⟩ := s.loadInto_spec dr (s.pcOff9 off9)
    exact ⟨dr, _, n, rfl, congrArg _ hn⟩
  | ldr dr base off6 =>
    obtain ⟨n, hn⟩ := s.loadInto_spec dr (s.baseOff6 base off6)
    exact ⟨dr, _, n, rfl, congrArg _ hn⟩
  | ldi dr off9 =>
    obtain ⟨v, n, h⟩ := execLdi_spec dr off9 s
    exact ⟨dr, v, n, rfl, h⟩
  | _ => cases hi

/-- After a flag-updating instruction Flag is the updater's flag for the word in DR (R25). -/
theorem exec_flagUpdating_flag {i : Instr} {s t : State} (hi : flagUpdating i = true) (h : exec i s = .next t) :
    ∃ dr, regsWritten i = [dr] ∧ t.flag = flagOf (t.reg dr) := by
  obtain ⟨dr, v, n, hw, h'⟩ := exec_flagUpdating hi s
  rw [h'] at h
  cases h
  exact ⟨dr, hw, by simp⟩

/-- An instruction of the TRAP opcode leaves Flag unchanged (R105). -/
theorem exec_trap_flag {i : Instr} {s t : State} (hi : opcodeOfInstr i = .trap) (h : exec i s = .next t) :
    t.flag = s.flag := by
  rcases exec_trap_next hi h with ⟨_, _, _, _, _, rfl⟩ | ⟨_, rfl⟩ | ⟨_, _, _, _, rfl⟩ | ⟨_, rfl⟩ | ⟨_, _, _, rfl⟩ <;> rfl

/-- An instruction that does not update flags leaves Flag unchanged (R25). -/
theorem exec_flag_unchanged {i : Instr} {s t : State} (hi : flagUpdating i = false) (h : exec i s = .next t) :
    t.flag = s.flag := by
  cases i with
  | addReg | addImm | andReg | andImm | not | lea | ld | ldr | ldi => cases hi
  | trap | getc | out | puts | inChar | putsp | halt => exact exec_trap_flag rfl h
  | br cond off9 | nop off9 =>
    cases h
    simp [State.branch_spec]
  | st | str | jsr | jsrr | jmp | ret | rti | res =>
    cases h
    rfl
  | sti =>
    cases h
    simp

/-- RTI and RES fault and change nothing but the run state (R112, R113). -/
theorem exec_reserved {i : Instr} {low : BitVec 12} (hi : i = .rti low ∨ i = .res low) (s : State) :
    ∃ r, exec i s = .next { s with run := .faulted r } := by
  rcases hi with rfl | rfl <;> exact ⟨_, rfl⟩

/-- Settles O52: the nine flag-updating forms end in the flag updater, every other handler's updates keep Flag. -/
theorem flagWriters : Obligations.FlagWriters := by
  refine ⟨fun i s t h => ⟨fun hi => exec_flag_unchanged hi h, fun hi => ?_⟩, fun i s t ⟨low, hi⟩ h => ?_⟩
  · obtain ⟨dr, hw, hf⟩ := exec_flagUpdating_flag hi h
    exact ⟨dr, hw, hf, hf ▸ flagMatches_flagOf _⟩
  · obtain ⟨r, h'⟩ := exec_reserved hi s
    exact ⟨r, by rw [h'] at h; cases h; rfl⟩

/-! ## Flag along a run (R27) -/

/-- A fetch leaves Flag unchanged. -/
@[simp] theorem State.fetch_flag (s : State) : s.fetch.2.flag = s.flag := by simp [State.fetch]

/-- A step that runs no flag-updating instruction leaves Flag unchanged. -/
theorem step_quiet_flag {s t : State} (hq : stepUpdatesFlag s = false) (h : step s = .next t) : t.flag = s.flag := by
  rcases step_next_running h with ⟨_, ⟨hp, he⟩ | ⟨f, _, he⟩⟩
  · have hi : flagUpdating s.fetch.1 = false := by simpa [stepUpdatesFlag, hp] using hq
    rw [exec_flag_unchanged hi he, State.fetch_flag]
  · obtain ⟨_, _, _, _, rfl⟩ := State.printString_next he
    rfl

/-- Any number of such steps leave Flag unchanged. -/
theorem QuietSteps.flag_eq {s t : State} (h : QuietSteps s t) : t.flag = s.flag := by
  induction h with
  | start => rfl
  | more _ hq hstep ih => rw [step_quiet_flag hq hstep, ih]

/-- After a step that runs a flag-updating instruction Flag shows the sign of the word in its DR. -/
theorem step_updates_flag {s t : State} (hs : stepUpdatesFlag s = true) (h : step s = .next t) :
    ∃ dr, regsWritten s.fetch.1 = [dr] ∧ FlagMatches (t.reg dr) t.flag := by
  obtain ⟨hp, hi⟩ : s.printing = none ∧ flagUpdating s.fetch.1 = true := by simpa [stepUpdatesFlag] using hs
  rcases step_next_running h with ⟨_, ⟨_, he⟩ | ⟨f, hf, _⟩⟩
  · obtain ⟨dr, hw, hflag⟩ := exec_flagUpdating_flag hi he
    exact ⟨dr, hw, hflag ▸ flagMatches_flagOf _⟩
  · simp [hp] at hf

/-- A running state with Flag at Z whose PC and next input byte are not zero: what a call writes to R7 and what GETC
and IN write to R0 is not zero, and Flag stays at Z. -/
def zeroFlagState : State := { State.resetWith .z 0x3000 .plain with input := [0x41] }

/-- Settles O53: quiet steps keep Flag, by induction on their number; the disagreements are in `zeroFlagState`. -/
theorem flagReflectsLastUpdate : Obligations.FlagReflectsLastUpdate := by
  have hne : (0x3000 : Word) ≠ 0 ∧ (0x41 : Word) ≠ 0 := by decide
  refine ⟨fun s t u hs h hq => ?_, ⟨0, zeroFlagState, _, rfl, not_flagMatches_z hne.1⟩,
    ⟨.r1, zeroFlagState, _, rfl, not_flagMatches_z hne.1⟩, ⟨zeroFlagState, _, rfl, not_flagMatches_z hne.1⟩,
    ⟨zeroFlagState, _, rfl, not_flagMatches_z hne.2⟩, ⟨zeroFlagState, _, rfl, not_flagMatches_z hne.2⟩⟩
  obtain ⟨dr, hw, hm⟩ := step_updates_flag hs h
  exact ⟨dr, hw, hq.flag_eq ▸ hm⟩

/-! ## Who reads Flag (R26) -/

/-- The state with another Flag. -/
def State.setFlag (s : State) (f : Flag) : State := { s with flag := f }

/-- A memory read does not look at Flag. -/
theorem State.memRead_setFlag (s : State) (f : Flag) (a : Word) :
    (s.setFlag f).memRead a = ((s.memRead a).1, (s.memRead a).2.setFlag f) := by
  cases h : s.readIsDraw a with
  | true => rw [State.memRead_draw h, State.memRead_draw (s := s.setFlag f) h]; rfl
  | false => rw [State.memRead_plain h, State.memRead_plain (s := s.setFlag f) h]; rfl

/-- A scan does not look at Flag. -/
theorem scanString_setFlag (form : StringForm) (fuel : Nat) (a : Word) (s : State) (f : Flag) :
    scanString form fuel a (s.setFlag f) = (scanString form fuel a s).setFlag f := by
  induction fuel generalizing a s with
  | zero => rfl
  | succ fuel ih =>
    by_cases h : (s.memRead a).1 = 0#16
    · rw [scanString_zero h, scanString_zero (by rwa [State.memRead_setFlag]), State.memRead_setFlag]
      rfl
    · rw [scanString_nonzero h, scanString_nonzero (by rwa [State.memRead_setFlag]), State.memRead_setFlag, ← ih]
      rfl

/-- A load ends in the same state whatever Flag held before, since it sets Flag itself. -/
theorem State.loadInto_setFlag (s : State) (f : Flag) (dr : Reg) (ea : Word) :
    (s.setFlag f).loadInto dr ea = s.loadInto dr ea := by
  rw [State.loadInto, State.memRead_setFlag]
  rfl

/-- A flag-updating instruction has the same outcome whatever Flag held before. -/
theorem exec_setFlag_of_flagUpdating {i : Instr} (hi : flagUpdating i = true) (s : State) (f : Flag) :
    exec i (s.setFlag f) = exec i s := by
  cases i with
  | addReg | addImm | andReg | andImm | not | lea => rfl
  | ld dr off9 => exact congrArg Host.Outcome.next (s.loadInto_setFlag f dr (s.pcOff9 off9))
  | ldr dr base off6 => exact congrArg Host.Outcome.next (s.loadInto_setFlag f dr (s.baseOff6 base off6))
  | ldi dr off9 =>
    show execLdi dr off9 (s.setFlag f) = execLdi dr off9 s
    rw [execLdi, State.memRead_setFlag]
    exact congrArg _ (State.loadInto_setFlag _ f dr _)
  | _ => cases hi

/-- `m` neither reads nor writes Flag: from a state with another Flag it goes to the same next state with that Flag. -/
def IgnoresFlag (m : State → Host.Outcome State Fault Refusal) : Prop :=
  ∀ (s t : State) (f : Flag), m s = .next t → m (s.setFlag f) = .next (t.setFlag f)

/-- A handler that always goes on ignores Flag when its update commutes with a change of Flag. -/
theorem IgnoresFlag.of_next {m : State → Host.Outcome State Fault Refusal} {g : State → State}
    (hm : ∀ s, m s = .next (g s)) (hg : ∀ s f, g (s.setFlag f) = (g s).setFlag f) : IgnoresFlag m := by
  intro s t f h
  rw [hm] at h ⊢
  cases h
  rw [hg]

/-- What follows the write of R7 ignores Flag, so the whole service call does. -/
theorem IgnoresFlag.after_trapEntry {m : State → Host.Outcome State Fault Refusal} (hm : IgnoresFlag m) :
    IgnoresFlag (fun s => m s.trapEntry) := fun s t f h => hm s.trapEntry t f h

/-- `input()` does not look at Flag. -/
theorem State.nextInput_setFlag (s : State) (f : Flag) :
    (s.setFlag f).nextInput = s.nextInput.map (fun p => (p.1, p.2.setFlag f)) := by
  cases s with
  | mk regs pc flag mem run out mode input ended draws printing =>
    cases input <;> cases ended <;> rfl

/-- The end of GETC and IN ignores Flag. -/
theorem readChar_ignoresFlag (echo : Byte → List Byte) : IgnoresFlag (fun s => s.readChar echo) := by
  intro s t f h
  simp only [State.readChar, State.nextInput_setFlag] at h ⊢
  cases hn : s.nextInput with
  | none => simp [hn] at h
  | some p =>
    rw [hn] at h
    cases h
    rfl

/-- The loop of PUTS and PUTSP ignores Flag. -/
theorem printString_ignoresFlag (form : StringForm) : IgnoresFlag (fun s => s.printString form) :=
  .of_next (fun _ => rfl) (fun s f => scanString_setFlag form s.scanBound (s.reg .r0) s f)

theorem getcRoutine_ignoresFlag : IgnoresFlag State.getcRoutine := readChar_ignoresFlag _

theorem outRoutine_ignoresFlag : IgnoresFlag State.outRoutine := .of_next (fun _ => rfl) (fun _ _ => rfl)

theorem inRoutine_ignoresFlag : IgnoresFlag State.inRoutine :=
  fun s t f h => readChar_ignoresFlag _ (s.emit Config.inPrompt) t f h

theorem haltRoutine_ignoresFlag : IgnoresFlag State.haltRoutine := .of_next (fun _ => rfl) (fun _ _ => rfl)

/-- The dispatch of TRAP ignores Flag, whatever the vector. -/
theorem trapDispatch_ignoresFlag (v : BitVec 8) : IgnoresFlag (fun s => s.trapDispatch v) := by
  intro s t f h
  unfold State.trapDispatch at h ⊢
  split_ifs at h ⊢
  · exact getcRoutine_ignoresFlag s t f h
  · exact outRoutine_ignoresFlag s t f h
  · exact printString_ignoresFlag .puts s t f h
  · exact inRoutine_ignoresFlag s t f h
  · exact printString_ignoresFlag .putsp s t f h
  · exact haltRoutine_ignoresFlag s t f h
  · cases h
    rfl

/-- Every instruction that does not update flags ignores Flag, but for BR. -/
theorem exec_ignoresFlag {i : Instr} (hi : flagUpdating i = false) (hb : ∀ cond off9, i ≠ .br cond off9) :
    IgnoresFlag (exec i) := by
  cases i with
  | addReg | addImm | andReg | andImm | not | lea | ld | ldr | ldi => cases hi
  | br cond off9 => exact absurd rfl (hb cond off9)
  | st | str | jsr | jsrr | jmp | ret | rti | res => exact .of_next (fun _ => rfl) (fun _ _ => rfl)
  | nop => exact .of_next (fun _ => rfl) (fun s f => by simp [State.branch])
  | sti sr off9 =>
    refine .of_next (fun _ => rfl) (fun s f => ?_)
    rw [show (s.setFlag f).pcOff9 off9 = s.pcOff9 off9 from rfl, State.memRead_setFlag]
    rfl
  | trap v => exact (trapDispatch_ignoresFlag v).after_trapEntry
  | getc => exact getcRoutine_ignoresFlag.after_trapEntry
  | out => exact outRoutine_ignoresFlag.after_trapEntry
  | puts => exact (printString_ignoresFlag .puts).after_trapEntry
  | inChar => exact inRoutine_ignoresFlag.after_trapEntry
  | putsp => exact (printString_ignoresFlag .putsp).after_trapEntry
  | halt => exact haltRoutine_ignoresFlag.after_trapEntry

/-- Settles O54: a flag-updating instruction has the same outcome under every Flag; every other but BR carries Flag
along. -/
theorem flagReadOnlyByBranch : Obligations.FlagReadOnlyByBranch := by
  intro i s t f hb h
  cases hi : flagUpdating i with
  | true => exact (exec_setFlag_of_flagUpdating hi s f).trans h
  | false => exact exec_ignoresFlag hi hb s t f h

/-! ## Reset and the loader (R17, R131) -/

/-- Every register of a reset state is zero (R17). -/
@[simp] theorem State.resetWith_reg (f : FlagReset) (entry : Word) (m : MmioReadMode) (r : Reg) :
    (State.resetWith f entry m).reg r = 0 := by cases r <;> rfl

/-- Loading changes memory only (R131). -/
theorem State.load_eq_some {s t : State} {A : Word} {ws : List Word} (h : s.load A ws = some t) :
    t = { s with mem := s.mem.writeWords A.toNat ws } := by
  unfold State.load at h
  split at h
  · exact (Option.some.inj h).symm
  · cases h

/-- A launched state is a reset state with the image's words in memory (R130, R131). -/
theorem launch_eq_some {f : FlagReset} {m : MmioReadMode} {entry : Option Word} {image : List Byte} {s : State}
    (h : launch f m entry image = some s) :
    ∃ A ws, imageWords image = some (A :: ws) ∧
      s = { State.resetWith f (entry.getD A) m with mem := Memory.writeWords [] A.toNat ws } := by
  unfold launch at h
  split at h
  · exact ⟨_, _, ‹_›, State.load_eq_some h⟩
  · cases h
  · cases h

/-- Settles O1: the reset registers are zero, and a launched state differs from a reset state in memory only. -/
theorem registersZeroAtReset : Obligations.RegistersZeroAtReset := by
  refine ⟨State.resetWith_reg _ _ _, State.resetWith_reg, fun f m entry image s h => ?_⟩
  obtain ⟨A, ws, _, rfl⟩ := launch_eq_some h
  exact ⟨State.resetWith_reg f (entry.getD A) m, entry.getD A, rfl⟩

end Sys2Proof.Machine

/-! SUPPORT and PROOFS of the family 20_memory: one memory write, and the region the loader writes. -/

namespace Sys2Proof.Machine

/-! ## One memory write (R38) -/

/-- A memory write has the whole effect of a store: its cell, and nothing else (R38). -/
theorem State.memWrite_cellStored (s : State) (a v : Word) : CellStored a v s (s.memWrite a v) := by
  have hcell : (s.memWrite a v).cell a = v := by simp
  have hothers : CellsKeptBut a s (s.memWrite a v) := fun b hb => by simp [hb]
  exact ⟨hcell, hothers, fun _ _ => rfl, rfl, rfl, rfl, rfl, rfl, rfl, rfl, rfl⟩

/-- Settles O6: `State.memWrite` is total, writes its cell and keeps the rest of the state. -/
theorem memWriteChangesOneCell : Obligations.MemWriteChangesOneCell := fun s a v =>
  ⟨s.memWrite_cellStored a v, s.memWrite_draws a v⟩

/-! ## The region the loader writes (R35, R131) -/

/-- The loader's writes leave the cells below and above their region as they were. -/
theorem Memory.read_writeWords_outside {ws : List Word} {m : Memory} {a b : Nat} (hb : b < a ∨ a + ws.length ≤ b) :
    (m.writeWords a ws).read b = m.read b := by
  induction ws generalizing m a with
  | nil => rfl
  | cons w ws ih =>
    rw [List.length_cons] at hb
    calc (m.writeWords a (w :: ws)).read b
      _ = (m.write a w).read b := ih (by omega)
      _ = m.read b := by rw [Memory.read_write, if_neg (by omega)]

/-- The loader's writes put word `i` of the image into cell `i` of their region: no later write reaches it. -/
theorem Memory.read_writeWords_inside {ws : List Word} {m : Memory} {a i : Nat} (h : i < ws.length) :
    (m.writeWords a ws).read (a + i) = ws[i] := by
  induction ws generalizing m a i with
  | nil => exact absurd h (Nat.not_lt_zero i)
  | cons w ws ih =>
    cases i with
    | zero =>
      calc (m.writeWords a (w :: ws)).read a
        _ = (m.write a w).read a := Memory.read_writeWords_outside (.inl a.lt_succ_self)
        _ = w := by simp
    | succ i =>
      rw [← Nat.succ_add_eq_add_succ]
      exact ih (Nat.lt_of_succ_lt_succ h)

/-- Below the top of memory `wordsAbove` does not wrap. -/
theorem wordsAbove_toNat {a : Word} {j : Nat} (h : a.toNat + j < 65536) : (wordsAbove a j).toNat = a.toNat + j := by
  rw [wordsAbove, BitVec.toNat_add, BitVec.toNat_ofNat, Nat.add_mod_mod, Nat.mod_eq_of_lt h]

/-- An image that fits below the top of memory is launched: the reset state with its words in memory (R131). -/
theorem launch_of_fits (f : FlagReset) (m : MmioReadMode) (entry : Option Word) {image : List Byte} {A : Word}
    {ws : List Word} (himage : imageWords image = some (A :: ws)) (hfits : ws.length ≤ 65536 - A.toNat) :
    launch f m entry image =
      some { State.resetWith f (entry.getD A) m with mem := Memory.writeWords [] A.toNat ws } := by
  simp only [launch, himage, State.load, if_pos hfits]
  rfl

/-- Settles O4: the launched memory is the loader's writes over blank memory, so each cell is read inside or outside
their region. -/
theorem loaderPlacesImage : Obligations.LoaderPlacesImage := by
  refine ⟨fun _ _ _ _ => rfl, fun f m entry image A ws himage hfits =>
    ⟨_, launch_of_fits f m entry himage hfits, fun i hi => ?_, fun a ha => Memory.read_writeWords_outside ha⟩⟩
  have haddr : (wordsAbove A i).toNat = A.toNat + i := wordsAbove_toNat (by omega)
  rw [State.cell, haddr]
  exact Memory.read_writeWords_inside hi

end Sys2Proof.Machine

/-! SUPPORT and PROOFS of the family 30_encoding: routing by the opcode, and the decoding and dispatch of TRAP's
vectors. -/

namespace Sys2Proof.Machine

/-! ## Routing by the opcode (R60) -/

/-- Every form of a TRAP word is an instruction of the TRAP opcode. -/
@[simp] theorem opcodeOfInstr_decodeTrap (v : BitVec 8) : opcodeOfInstr (decodeTrap v) = .trap := by
  unfold decodeTrap
  split_ifs <;> rfl

/-- A word routed to an opcode takes a form of that opcode (R60). -/
@[simp] theorem opcodeOfInstr_decodeForm (o : Opcode) (w : Word) : opcodeOfInstr (decodeForm o w) = o := by
  cases o with
  | br | add | jsr | and | jmp =>
    simp only [decodeForm]
    split <;> rfl
  | trap => exact opcodeOfInstr_decodeTrap _
  | ld | st | ldr | str | rti | not | ldi | sti | res | lea => rfl

/-! ## The vectors outside the six services (R63, R105) -/

/-- The vectors that are no service's are those below 0x20 and those above 0x25 (R63). -/
theorem serviceVector_eq_false_iff (v : BitVec 8) : serviceVector v = false ↔ v.toNat < 0x20 ∨ 0x25 < v.toNat := by
  simp only [serviceVector, BitVec.le_def, BitVec.toNat_ofNat, Bool.and_eq_false_iff, decide_eq_false_iff_not]
  omega

/-- A vector that is no service's differs from each service's. -/
theorem ne_of_serviceVector {v u : BitVec 8} (hv : serviceVector v = false) (hu : serviceVector u = true) : v ≠ u := by
  rintro rfl
  simp [hu] at hv

/-- A TRAP word decodes by its vector alone, the value of bits [7:0] (R105). -/
theorem decode_trap {w : Word} {v : BitVec 8} (hop : opcodeOf (w.extractLsb' 12 4) = .trap)
    (hv : w.toNat % 256 = v.toNat) : decode w = decodeTrap v := by
  have hbits : bits w 0 8 = v := BitVec.eq_of_toNat_eq hv
  rw [decode_of_opcode hop, decodeForm, hbits]

/-- A TRAP word whose vector is no service's decodes to TRAP with its vector (R105). -/
theorem decode_trap_badVector {w : Word} (hop : opcodeOf (w.extractLsb' 12 4) = .trap)
    (hbad : w.toNat % 256 < 0x20 ∨ 0x25 < w.toNat % 256) : decode w = .trap (w.extractLsb' 0 8) := by
  have hv : serviceVector (w.extractLsb' 0 8) = false := (serviceVector_eq_false_iff _).2 hbad
  rw [decode_trap hop (v := w.extractLsb' 0 8) rfl]
  simp [decodeTrap, ne_of_serviceVector hv, serviceVector]

/-- TRAP with a vector that is no service's raises BAD_TRAP_VECTOR after the write of R7 (R105). -/
theorem exec_trap_badVector {v : BitVec 8} (hbad : v.toNat < 0x20 ∨ 0x25 < v.toNat) (s : State) :
    exec (.trap v) s = .next (s.trapEntry.raiseFault (.badTrapVector v (s.pc - 1))) := by
  have hv : serviceVector v = false := (serviceVector_eq_false_iff v).2 hbad
  have hdispatch : s.trapEntry.trapDispatch v =
      .next (s.trapEntry.raiseFault (.badTrapVector v s.trapEntry.instrAddr)) := by
    simp [State.trapDispatch, ne_of_serviceVector hv, serviceVector]
  exact hdispatch

/-- What TRAP does before its dispatch writes R7 only (R105). -/
theorem State.trapEntry_serviceFrame (s : State) : ServiceFrame [] s s.trapEntry := by
  have hregs : RegsKeptBut [.r7] s s.trapEntry := fun r hr => by
    rw [State.trapEntry, State.writeReg_reg, if_neg (List.ne_of_not_mem_cons hr)]
  exact ⟨rfl, rfl, rfl, hregs, fun _ => rfl, rfl⟩

/-- Settles O18: the form is one of the routed opcode's, the mode bit selects it, and the faulting forms are those of
`exec_reserved` and `exec_trap_badVector`. -/
theorem routedByOpcodeAlone : Obligations.RoutedByOpcodeAlone := by
  refine fun w => ⟨opcodeOfInstr_decodeForm _ w, fun hop => ?add, fun hop => ?and, fun hop => ?jsr,
    fun hop s => ?reserved, fun hop hbad s => ?badVector⟩
  case add | and =>
    rw [decode_of_opcode hop]
    split
    · exact ⟨_, _, _, if_pos ‹_›⟩
    · exact ⟨_, _, _, if_neg ‹_›⟩
  case jsr =>
    rw [decode_of_opcode hop]
    split
    · exact ⟨_, if_pos ‹_›⟩
    · exact ⟨_, if_neg ‹_›⟩
  case reserved =>
    have hform : decode w = .rti (bits w 0 12) ∨ decode w = .res (bits w 0 12) :=
      hop.imp (fun h => decode_of_opcode h) (fun h => decode_of_opcode h)
    obtain ⟨r, hexec⟩ := exec_reserved hform s
    exact ⟨_, r, hexec, rfl⟩
  case badVector =>
    rw [decode_trap_badVector hop hbad]
    exact ⟨_, _, exec_trap_badVector (v := w.extractLsb' 0 8) hbad s, rfl⟩

/-- Settles O48: a TRAP word decodes by its vector, and TRAP with a bad vector is the write of R7 and then the fault. -/
theorem trapDispatchAndBadVector : Obligations.TrapDispatchAndBadVector :=
  ⟨fun _ hop => ⟨decode_trap (v := 0x20#8) hop, decode_trap (v := 0x21#8) hop, decode_trap (v := 0x22#8) hop,
    decode_trap (v := 0x23#8) hop, decode_trap (v := 0x24#8) hop, decode_trap (v := 0x25#8) hop,
    decode_trap_badVector hop⟩,
  fun _ s hbad => ⟨_, exec_trap_badVector hbad s, rfl, rfl, rfl, rfl, rfl, rfl, rfl, s.trapEntry_serviceFrame⟩⟩

end Sys2Proof.Machine

/-! SUPPORT and PROOFS of the family 40_datapath_units: the sign-extension unit, the flag updater, the step, and the
two ways a run stays at an instruction, HALT and the wait for input. -/

namespace Sys2Proof.Machine

/-! ## The sign-extension unit (R68, R70) -/

/-- On a word that is an n-bit field, the contract is two's-complement sign extension of its low n bits. -/
theorem sextContract_of_field {n : Nat} {f : Word} (h1 : 1 ≤ n) (hn : n ≤ 16) (hf : f.toNat < 2 ^ n) :
    sextContract n f = (f.setWidth n).signExtend 16 := by
  have hfield : (f.setWidth n).setWidth 16 = f := by
    apply BitVec.eq_of_toNat_eq
    rw [BitVec.toNat_setWidth, BitVec.toNat_setWidth, Nat.mod_eq_of_lt hf, Nat.mod_eq_of_lt f.isLt]
  rw [← sextContract_eq_signExtend h1 _ hn, hfield]

/-- The signed value of the contract's output on an n-bit field is the field's signed value (R70). -/
theorem sextContract_toInt {n : Nat} {f : Word} (h1 : 1 ≤ n) (hn : n ≤ 16) (hf : f.toNat < 2 ^ n) :
    (sextContract n f).toInt = if f.toNat < 2 ^ (n - 1) then (f.toNat : Int) else (f.toNat : Int) - 2 ^ n := by
  have hpow : 2 ^ n = 2 * 2 ^ (n - 1) := (mul_pow_sub_one (by omega) 2).symm
  have hhalf : 2 * f.toNat < 2 ^ n ↔ f.toNat < 2 ^ (n - 1) := by omega
  rw [sextContract_of_field h1 hn hf, BitVec.toInt_signExtend_of_le hn, BitVec.toInt_eq_toNat_cond,
    BitVec.toNat_setWidth, Nat.mod_eq_of_lt hf, if_congr hhalf rfl rfl, Nat.cast_pow, Nat.cast_ofNat]

/-- The contract's output on an n-bit field, as a number (R68). -/
theorem sextContract_toNat {n : Nat} {f : Word} (h1 : 1 ≤ n) (hn : n ≤ 16) (hf : f.toNat < 2 ^ n) :
    (sextContract n f).toNat = if f.toNat < 2 ^ (n - 1) then f.toNat else f.toNat + 65536 - 2 ^ n := by
  have hpow : 2 ^ n = 2 * 2 ^ (n - 1) := (mul_pow_sub_one (by omega) 2).symm
  have hle : 2 ^ n ≤ 2 ^ 16 := Nat.pow_le_pow_right (by omega) hn
  have hcast : (2 : Int) ^ n = (2 ^ n : Nat) := by norm_cast
  have hlt := (sextContract n f).isLt
  have hint := sextContract_toInt h1 hn hf
  rw [BitVec.toInt_eq_toNat_cond, hcast] at hint
  split_ifs at hint ⊢ <;> omega

/-- Settles O9: within 1..16 the unit is the contract, whose output is known bit by bit, and on a field as a number. -/
theorem signExtensionUnit : Obligations.SignExtensionUnit := fun n f h1 hn =>
  ⟨sextContract n f, if_pos ⟨h1, hn⟩, fun _ hi => sextContract_getLsbD n f hi,
    fun hf => ⟨sextContract_toNat h1 hn hf, sextContract_toInt h1 hn hf⟩⟩

/-! ## The flag updater (R71) -/

/-- The updater gives one of the three flags, never the fourth value of R28. -/
theorem flagOf_cases (v : Word) : flagOf v = .n ∨ flagOf v = .z ∨ flagOf v = .p := by
  unfold flagOf
  split_ifs <;> simp

/-- Settles O11: the updater's flag shows the sign and is one of the three; its update is of Flag alone. -/
theorem flagUpdaterShowsSign : Obligations.FlagUpdaterShowsSign := fun _ v =>
  ⟨flagMatches_flagOf v, flagOf_cases v, rfl⟩

/-! ## The step (R76, R77) -/

/-- Settles O21: `step_running`, with the fetch of a cell where PC is read plainly. -/
theorem stepRunsDecodedInstruction : Obligations.StepRunsDecodedInstruction := by
  refine ⟨fun s i hr hp hd hi => ?_, fun s hr hp => step_running hr hp,
    fun s t hr h => hr (step_next_running h).1⟩
  rw [step_running hr hp, State.fetch_plain hd, hi]
  rfl

/-! ## HALT (R80, R111) -/

/-- HALT_STATUS is not zero, whatever the open integer behind it is. -/
theorem haltStatus_ne_zero : Config.haltStatus ≠ 0 := by
  unfold Config.haltStatus
  split
  · decide
  · assumption

/-- Both forms of HALT write R7, emit the notice and halt (R111). -/
theorem exec_halt {i : Instr} (hi : i = .halt ∨ i = .trap 0x25) (s : State) :
    exec i s = .next (s.trapEntry.emit Config.haltNotice).haltRun := by
  rcases hi with rfl | rfl <;> rfl

/-- Settles O47: after the write of R7 only the trace and the run state change. -/
theorem haltEndsRun : Obligations.HaltEndsRun := fun _ s hi =>
  ⟨_, exec_halt hi s, rfl, rfl, rfl, haltStatus_ne_zero, rfl, rfl, rfl, rfl, s.trapEntry_serviceFrame⟩

/-! ## Waiting for input (R78, R104) -/

/-- With no byte held and the console ended, the end of GETC and IN waits in the state it began in. -/
theorem State.readChar_waits {s : State} (hin : s.input = []) (hend : s.inputEnded = true) (echo : Byte → List Byte) :
    s.readChar echo = .fault (.inputWait s) := by
  have hnone : s.nextInput = none := by simp [State.nextInput, hin, hend]
  rw [State.readChar, hnone]

/-- With no byte to come both forms of GETC wait after the write of R7. -/
theorem exec_getc_waits {i : Instr} {s : State} (hi : i = .getc ∨ i = .trap 0x20) (hin : s.input = [])
    (hend : s.inputEnded = true) : exec i s = .fault (.inputWait s.trapEntry) := by
  rcases hi with rfl | rfl <;> exact State.readChar_waits (s := s.trapEntry) hin hend _

/-- With no byte to come both forms of IN wait after the write of R7 and the prompt. -/
theorem exec_in_waits {i : Instr} {s : State} (hi : i = .inChar ∨ i = .trap 0x23) (hin : s.input = [])
    (hend : s.inputEnded = true) : exec i s = .fault (.inputWait (s.trapEntry.emit Config.inPrompt)) := by
  rcases hi with rfl | rfl <;> exact State.readChar_waits (s := s.trapEntry.emit Config.inPrompt) hin hend _

/-- Settles O50: the states reached are the entry of the call and, for IN, that with the prompt emitted. -/
theorem inputWaits : Obligations.InputWaits := fun _ s hin hend =>
  ⟨fun hi => ⟨_, exec_getc_waits hi hin hend, rfl, rfl, rfl, rfl, rfl, rfl, s.trapEntry_serviceFrame⟩,
    fun hi => ⟨_, exec_in_waits hi hin hend, rfl, rfl, rfl, rfl, rfl, rfl, s.trapEntry_serviceFrame⟩⟩

/-! ## Where a step has no next state (R78, R79) -/

/-- The instructions that take a byte of console input are the two forms of GETC and the two of IN. -/
theorem readsConsole_iff (i : Instr) :
    readsConsole i ↔ (i = .getc ∨ i = .trap 0x20) ∨ (i = .inChar ∨ i = .trap 0x23) := by
  cases i <;> simp [readsConsole]

/-- GETC and IN have a next state, or they wait because no byte comes. -/
theorem State.readChar_next_or_waits (s : State) (echo : Byte → List Byte) :
    (∃ t, s.readChar echo = .next t) ∨
      (s.input = [] ∧ s.inputEnded = true ∧ ∃ reached, s.readChar echo = .fault (.inputWait reached)) := by
  rcases s.readChar_cases echo with ⟨_, _, _, h⟩ | ⟨hin, hend, h⟩
  · exact .inl ⟨_, h⟩
  · exact .inr ⟨hin, hend, s, h⟩

/-- The outcome of every instruction: a next state, or the wait of one that takes a byte of input where none comes. -/
theorem exec_next_or_waits (i : Instr) (s : State) :
    (∃ t, exec i s = .next t) ∨
      (readsConsole i ∧ s.input = [] ∧ s.inputEnded = true ∧ ∃ reached, exec i s = .fault (.inputWait reached)) := by
  rcases exec_trap_cases i s with ⟨h, hi⟩ | ⟨h, _⟩ | ⟨h, _⟩ | ⟨h, hi⟩ | ⟨h, _⟩ | ⟨h, _⟩ | ⟨_, _, _, h⟩ | hne
  · rw [h]
    exact (s.trapEntry.readChar_next_or_waits _).imp_right (⟨(readsConsole_iff i).2 (.inl hi), ·⟩)
  · exact .inl ⟨_, h⟩
  · exact .inl ⟨_, h⟩
  · rw [h]
    exact ((s.trapEntry.emit Config.inPrompt).readChar_next_or_waits _).imp_right
      (⟨(readsConsole_iff i).2 (.inr hi), ·⟩)
  · exact .inl ⟨_, h⟩
  · exact .inl ⟨_, h⟩
  · exact .inl ⟨_, h⟩
  · cases i with
    | trap | getc | out | puts | inChar | putsp | halt => exact absurd rfl hne
    | _ => exact .inl ⟨_, rfl⟩

/-- An instruction has no next state exactly where it takes a byte of input and none comes. -/
theorem exec_no_next_iff (i : Instr) (s : State) :
    (∀ t, exec i s ≠ .next t) ↔ readsConsole i ∧ s.input = [] ∧ s.inputEnded = true := by
  constructor
  · intro h
    rcases exec_next_or_waits i s with ⟨t, ht⟩ | ⟨hi, hin, hend, _⟩
    · exact absurd ht (h t)
    · exact ⟨hi, hin, hend⟩
  · rintro ⟨hi, hin, hend⟩ t
    rcases (readsConsole_iff i).1 hi with hi | hi
    · simp [exec_getc_waits hi hin hend]
    · simp [exec_in_waits hi hin hend]

/-- An instruction answers a fault only where it waits for input. -/
theorem exec_fault {i : Instr} {s : State} {f : Fault} (h : exec i s = .fault f) :
    readsConsole i ∧ s.input = [] ∧ s.inputEnded = true ∧ ∃ reached, f = .inputWait reached := by
  rcases exec_next_or_waits i s with ⟨t, ht⟩ | ⟨hi, hin, hend, reached, hf⟩
  · simp [h] at ht
  · exact ⟨hi, hin, hend, reached, Host.Outcome.fault.inj (h ▸ hf)⟩

/-- No instruction is refused (R60). -/
theorem exec_ne_refused (i : Instr) (s : State) (r : Refusal) : exec i s ≠ .refused r := by
  rcases exec_next_or_waits i s with ⟨_, h⟩ | ⟨_, _, _, _, h⟩ <;> simp [h]

/-- A step in run state RUNNING is not refused, as an instruction or as a part of a string loop; in the other run
states it is a fault of the model. -/
theorem step_ne_refused (s : State) (r : Refusal) : step s ≠ .refused r := by
  cases hr : s.run with
  | running =>
    cases hp : s.printing with
    | none =>
      rw [step_running hr hp]
      exact exec_ne_refused _ _ r
    | some f => simp [step_printing hr hp, State.printString]
  | halted | faulted => simp [step, hr]

/-- A fetch takes no byte of console input. -/
@[simp] theorem State.fetch_input (s : State) : s.fetch.2.input = s.input := by simp [State.fetch]

/-- A fetch does not end the console. -/
@[simp] theorem State.fetch_inputEnded (s : State) : s.fetch.2.inputEnded = s.inputEnded := by simp [State.fetch]

/-- From run state RUNNING a step has no next state exactly where it fetches GETC or IN and no byte comes. -/
theorem step_no_next_iff {s : State} (hr : s.run = .running) :
    (∀ t, step s ≠ .next t) ↔
      s.printing = none ∧ readsConsole s.fetch.1 ∧ s.input = [] ∧ s.inputEnded = true := by
  cases hp : s.printing with
  | none => simp [step_running hr hp, exec_no_next_iff]
  | some f => simp [step_printing hr hp, State.printString]

/-- NOP does nothing (R65). -/
@[simp] theorem exec_nop (off9 : BitVec 9) (s : State) : exec (.nop off9) s = .next s := by
  simp [exec, execNop, State.branch]

/-- The fetch increment of PC: by one, and from the top of memory to 0x0000 (R77). -/
theorem toNat_pc_succ (pc : Word) : (pc + 1#16).toNat = if pc.toNat = 65535 then 0 else pc.toNat + 1 := by
  split <;> bv_omega

/-- A step over a zero word, read plainly, moves PC past it and changes nothing else (R79). -/
theorem step_zero_word {s : State} (hr : s.run = .running) (hp : s.printing = none)
    (hd : s.readIsDraw s.pc = false) (hz : s.cell s.pc = 0) : step s = .next (s.setPc (s.pc + 1#16)) := by
  have hnop : decode 0 = .nop 0 := rfl
  rw [step_running hr hp, State.fetch_plain hd, hz, hnop, exec_nop]

/-- Settles O23: every outcome is a next state or a wait for input, and the zero word is a NOP. -/
theorem onlyWaitingForInputStops : Obligations.OnlyWaitingForInputStops :=
  ⟨step_ne_refused, fun _ _ _ => exec_fault, fun _ => step_no_next_iff,
    fun s hr hp hd hz => ⟨_, step_zero_word hr hp hd hz, rfl, toNat_pc_succ s.pc⟩⟩

end Sys2Proof.Machine

/-! SUPPORT and PROOFS of the family 41_branch: the condition of BR, and what BR does. -/

namespace Sys2Proof.Machine

/-- BR is taken exactly when cond has the bit of the current flag, and so never under the fourth value of Flag
(R24, R82). -/
theorem branchTaken_iff (cond : BitVec 3) (f : Flag) :
    branchTaken cond f ↔ cond.getLsbD 2 ∧ f = .n ∨ cond.getLsbD 1 ∧ f = .z ∨ cond.getLsbD 0 ∧ f = .p := by
  revert cond
  cases f with
  | n | z | p | none => decide

/-- BR writes PC only: its target when it is taken, the old PC when it is not (R82, R83). -/
theorem exec_br (cond : BitVec 3) (off9 : BitVec 9) (s : State) : exec (.br cond off9) s =
    .next (s.setPc (if branchTaken cond s.flag then s.pc + off9.signExtend 16 else s.pc)) := by
  rw [← s.pcOff9_eq, ← s.branch_spec]
  rfl

/-- Settles O38: BR writes PC by `exec_br` under the condition of `branchTaken_iff`, NOP does nothing, and the decoder
gives the opcode's form by cond. -/
theorem branchOnFlag : Obligations.BranchOnFlag :=
  ⟨fun cond off9 s => ⟨_, exec_br cond off9 s, rfl, if_congr (branchTaken_iff cond s.flag) rfl rfl⟩,
    exec_nop, fun _ hop => decode_of_opcode hop⟩

end Sys2Proof.Machine

/-! SUPPORT and PROOFS of the family 42_operate: the ALU's functions as arithmetic, and what ADD, AND and NOT do. -/

namespace Sys2Proof.Machine

/-! ## The write of a destination (R72) -/

/-- Writing DR and updating Flag from the same word is the whole effect of a flag-updating instruction (R72). -/
theorem State.writeDest_destWritten (s : State) (dr : Reg) (v : Word) : DestWritten dr v s (s.writeDest dr v) := by
  have hreg : (s.writeDest dr v).reg dr = v := by simp
  have hothers : RegsKeptBut [dr] s (s.writeDest dr v) := fun r hr => by
    rw [State.writeDest_reg, if_neg (List.ne_of_not_mem_cons hr)]
  exact ⟨hreg, flagMatches_flagOf v, rfl, hothers, fun _ => rfl, rfl, rfl, rfl, rfl, rfl, rfl⟩

/-- An instruction that answers the write of `v` to DR meets the statement of a flag-updating instruction that makes no
draw. -/
theorem destWritten_of_exec {i : Instr} {s : State} {dr : Reg} {v : Word} (h : exec i s = .next (s.writeDest dr v)) :
    ∃ t, exec i s = .next t ∧ DestWritten dr v s t ∧ t.draws = s.draws :=
  ⟨_, h, s.writeDest_destWritten dr v, rfl⟩

/-! ## The ALU (R73) -/

/-- ADD is the sum modulo 65536 (R73). -/
theorem alu_add_eq_ofNat (a b : Word) : alu .add a b = BitVec.ofNat 16 (a.toNat + b.toNat) :=
  BitVec.eq_of_toNat_eq (BitVec.toNat_add a b)

/-- ADD of a sign-extended immediate is the sum with the immediate's signed value, modulo 65536 (R55, R73). -/
theorem alu_add_sext5 (a : Word) (imm5 : BitVec 5) :
    alu .add a (sext5 imm5) = BitVec.ofInt 16 (a.toInt + imm5.toInt) := by
  rw [BitVec.ofInt_add, BitVec.ofInt_toInt, sext5_eq]
  rfl

/-- NOT is the complement to 65535, whatever the second input is (R73). -/
theorem alu_not_eq_ofNat (a b : Word) : alu .not a b = BitVec.ofNat 16 (65535 - a.toNat) := by
  have hlt : 65535 - a.toNat < 2 ^ 16 := by omega
  apply BitVec.eq_of_toNat_eq
  rw [BitVec.toNat_ofNat, Nat.mod_eq_of_lt hlt]
  exact BitVec.toNat_not

/-! ## The five forms -/

/-- ADD, register form, writes the sum of the old sources to DR (R84). -/
theorem exec_addReg (dr sr1 sr2 : Reg) (s : State) : exec (.addReg dr sr1 sr2) s =
    .next (s.writeDest dr (BitVec.ofNat 16 ((s.reg sr1).toNat + (s.reg sr2).toNat))) := by
  rw [← alu_add_eq_ofNat]
  rfl

/-- ADD, immediate form, writes the sum of the old source and the signed immediate to DR (R85). -/
theorem exec_addImm (dr sr1 : Reg) (imm5 : BitVec 5) (s : State) : exec (.addImm dr sr1 imm5) s =
    .next (s.writeDest dr (BitVec.ofInt 16 ((s.reg sr1).toInt + imm5.toInt))) := by
  rw [← alu_add_sext5]
  rfl

/-- AND, register form, writes the bitwise AND of the old sources to DR (R86). -/
theorem exec_andReg (dr sr1 sr2 : Reg) (s : State) :
    exec (.andReg dr sr1 sr2) s = .next (s.writeDest dr (s.reg sr1 &&& s.reg sr2)) := rfl

/-- AND, immediate form, writes the bitwise AND of the old source and the sign-extended immediate to DR (R87). -/
theorem exec_andImm (dr sr1 : Reg) (imm5 : BitVec 5) (s : State) :
    exec (.andImm dr sr1 imm5) s = .next (s.writeDest dr (s.reg sr1 &&& imm5.signExtend 16)) := by
  rw [← sext5_eq]
  rfl

/-- NOT writes the complement of the old source to DR (R89). -/
theorem exec_not (dr sr : Reg) (s : State) :
    exec (.not dr sr) s = .next (s.writeDest dr (BitVec.ofNat 16 (65535 - (s.reg sr).toNat))) := by
  rw [← alu_not_eq_ofNat _ 0x0000#16]
  rfl

/-- Settles O25: `exec_addReg` is the write of DR, and mode bit 0 selects the register form. -/
theorem addRegisterForm : Obligations.AddRegisterForm :=
  ⟨fun dr sr1 sr2 s => destWritten_of_exec (exec_addReg dr sr1 sr2 s),
    fun _ hop hmode => (decode_of_opcode hop).trans (if_neg (ne_true_of_eq_false hmode))⟩

/-- Settles O26: `exec_addImm` is the write of DR, and mode bit 1 selects the immediate form. -/
theorem addImmediateForm : Obligations.AddImmediateForm :=
  ⟨fun dr sr1 imm5 s => destWritten_of_exec (exec_addImm dr sr1 imm5 s),
    fun _ hop hmode => (decode_of_opcode hop).trans (if_pos hmode)⟩

/-- Settles O27: `exec_andReg` is the write of DR, and mode bit 0 selects the register form. -/
theorem andRegisterForm : Obligations.AndRegisterForm :=
  ⟨fun dr sr1 sr2 s => destWritten_of_exec (exec_andReg dr sr1 sr2 s),
    fun _ hop hmode => (decode_of_opcode hop).trans (if_neg (ne_true_of_eq_false hmode))⟩

/-- Settles O28: `exec_andImm` is the write of DR, and mode bit 1 selects the immediate form. -/
theorem andImmediateForm : Obligations.AndImmediateForm :=
  ⟨fun dr sr1 imm5 s => destWritten_of_exec (exec_andImm dr sr1 imm5 s),
    fun _ hop hmode => (decode_of_opcode hop).trans (if_pos hmode)⟩

/-- Settles O29: `exec_not` is the write of DR, and the opcode has one form, whatever bits [5:0] are. -/
theorem notComplements : Obligations.NotComplements :=
  ⟨fun dr sr s => destWritten_of_exec (exec_not dr sr s), fun _ hop => decode_of_opcode hop⟩

end Sys2Proof.Machine

/-! SUPPORT and PROOFS of the family 43_load_store: effects that follow a memory read, and what the loads, LEA
and the stores do. -/

namespace Sys2Proof.Machine

/-! ## Reading before an effect (R37, R44) -/

/-- Under PLAIN every read, on the reserved addresses too, gives the cell and changes nothing (R44). -/
theorem State.memRead_of_plain {s : State} (h : s.mmioMode = .plain) (a : Word) : s.memRead a = (s.cell a, s) :=
  State.memRead_plain (by simp [State.readIsDraw, h])

/-- The write of a destination does not look at the counter of draws, so what is its whole effect from the state after
a memory read is so from the state before the read. -/
theorem DestWritten.of_memRead {dr : Reg} {a v : Word} {s t : State} (h : DestWritten dr v (s.memRead a).2 t) :
    DestWritten dr v s t := by
  obtain ⟨n, hn⟩ := s.memRead_state a
  rw [hn] at h
  exact h

/-- A store does not look at the counter of draws either, so its whole effect too may be told from the state before a
memory read. -/
theorem CellStored.of_memRead {a ea v : Word} {s t : State} (h : CellStored ea v (s.memRead a).2 t) :
    CellStored ea v s t := by
  obtain ⟨n, hn⟩ := s.memRead_state a
  rw [hn] at h
  exact h

/-- A load has the whole effect of a flag-updating instruction that gives DR the word read. -/
theorem State.loadInto_destWritten (s : State) (dr : Reg) (ea : Word) :
    DestWritten dr (s.memRead ea).1 s (s.loadInto dr ea) :=
  ((s.memRead ea).2.writeDest_destWritten dr (s.memRead ea).1).of_memRead

/-- After a load under PLAIN, DR holds the cell at the address. -/
theorem State.loadInto_reg_of_plain {s : State} (h : s.mmioMode = .plain) (dr : Reg) (ea : Word) :
    (s.loadInto dr ea).reg dr = s.cell ea := by
  rw [State.loadInto, State.memRead_of_plain h, State.writeDest_reg, if_pos rfl]

/-- An instruction that answers the load at `ea` meets the statement of a load. -/
theorem loaded_of_exec {i : Instr} {s : State} {dr : Reg} {ea : Word} (h : exec i s = .next (s.loadInto dr ea)) :
    ∃ t, exec i s = .next t ∧ DestWritten dr (s.memRead ea).1 s t ∧
      (s.mmioMode = .plain → t.reg dr = s.cell ea) :=
  ⟨_, h, s.loadInto_destWritten dr ea, fun hplain => State.loadInto_reg_of_plain hplain dr ea⟩

/-! ## Loads and LEA -/

/-- LD loads from PC plus the signed offset (R91). -/
theorem exec_ld (dr : Reg) (off9 : BitVec 9) (s : State) :
    exec (.ld dr off9) s = .next (s.loadInto dr (s.pc + off9.signExtend 16)) := by
  rw [← s.pcOff9_eq]
  rfl

/-- LDI loads from the word that the read at PC plus the signed offset gives, in the state after that read (R92). -/
theorem exec_ldi (dr : Reg) (off9 : BitVec 9) (s : State) : exec (.ldi dr off9) s =
    .next ((s.memRead (s.pc + off9.signExtend 16)).2.loadInto dr (s.memRead (s.pc + off9.signExtend 16)).1) := by
  rw [← s.pcOff9_eq]
  rfl

/-- LDR loads from the old base plus the signed offset (R93). -/
theorem exec_ldr (dr base : Reg) (off6 : BitVec 6) (s : State) :
    exec (.ldr dr base off6) s = .next (s.loadInto dr (s.reg base + off6.signExtend 16)) := by
  rw [← s.baseOff6_eq]
  rfl

/-- LEA writes PC plus the signed offset to DR (R94). -/
theorem exec_lea (dr : Reg) (off9 : BitVec 9) (s : State) :
    exec (.lea dr off9) s = .next (s.writeDest dr (s.pc + off9.signExtend 16)) := by
  rw [← s.pcOff9_eq]
  rfl

/-- Settles O31: `exec_ld` is a load at the PC-relative address, and the opcode has one form. -/
theorem loadPcRelative : Obligations.LoadPcRelative :=
  ⟨fun dr off9 s => loaded_of_exec (exec_ld dr off9 s), fun _ hop => decode_of_opcode hop⟩

/-- Settles O32: `exec_ldi` is a load in the state after the read of the pointer, which is the old state but for the
counter of draws, and is the old state under PLAIN. -/
theorem loadIndirect : Obligations.LoadIndirect := by
  refine ⟨fun dr off9 s => ⟨_, exec_ldi dr off9 s, (State.loadInto_destWritten _ dr _).of_memRead, fun hplain => ?_⟩,
    fun _ hop => decode_of_opcode hop⟩
  rw [State.memRead_of_plain hplain]
  exact State.loadInto_reg_of_plain hplain dr _

/-- Settles O33: `exec_ldr` is a load at an address made of the old base, and the opcode has one form. -/
theorem loadBaseOffset : Obligations.LoadBaseOffset :=
  ⟨fun dr base off6 s => loaded_of_exec (exec_ldr dr base off6 s), fun _ hop => decode_of_opcode hop⟩

/-- Settles O34: `exec_lea` is the write of DR with no read, and the opcode has one form. -/
theorem loadEffectiveAddress : Obligations.LoadEffectiveAddress :=
  ⟨fun dr off9 s => destWritten_of_exec (exec_lea dr off9 s), fun _ hop => decode_of_opcode hop⟩

/-! ## Stores -/

/-- Settles O35: ST is one memory write at the PC-relative address, and the opcode has one form. -/
theorem storePcRelative : Obligations.StorePcRelative :=
  ⟨fun sr off9 s => ⟨s.pcOff9_eq off9, _, rfl, s.memWrite_cellStored _ (s.reg sr), s.memWrite_draws _ _⟩,
    fun _ hop => decode_of_opcode hop⟩

/-- Settles O36: STI is one memory write, in the state after the read of the pointer, which is the old state but for
the counter of draws. -/
theorem storeIndirect : Obligations.StoreIndirect := by
  refine ⟨fun sr off9 s => ⟨s.pcOff9_eq off9, _, rfl, (State.memWrite_cellStored _ _ (s.reg sr)).of_memRead,
    fun hplain => ?_⟩, fun _ hop => decode_of_opcode hop⟩
  rw [State.memRead_of_plain hplain, s.pcOff9_eq]

/-- Settles O37: STR is one memory write at the base-plus-offset address, and the opcode has one form. -/
theorem storeBaseOffset : Obligations.StoreBaseOffset :=
  ⟨fun sr base off6 s => ⟨s.baseOff6_eq base off6, _, rfl, s.memWrite_cellStored _ (s.reg sr), s.memWrite_draws _ _⟩,
    fun _ hop => decode_of_opcode hop⟩

end Sys2Proof.Machine

/-! SUPPORT and PROOFS of the family 44_jump: what the jumps and the subroutine calls do, and the words of their two
opcodes. -/

namespace Sys2Proof.Machine

/-! ## Jumps (R98) -/

/-- JMP writes the base register to PC and nothing else (R98). -/
theorem exec_jmp (base : Reg) (s : State) : exec (.jmp base) s = .next (s.setPc (s.reg base)) := rfl

/-- RET is JMP with base R7 (R67, R98). -/
theorem exec_ret (s : State) : exec .ret s = exec (.jmp .r7) s := rfl

/-- R7 is the register of field 7 alone (R56). -/
theorem regOfField_eq_r7_iff (f : BitVec 3) : regOfField f = .r7 ↔ f = 7#3 where
  mp h := by
    rw [← fieldOfReg_regOfField f, h]
    rfl
  mpr h := by
    rw [h]
    rfl

/-- Settles O39: `exec_jmp` is a write of PC, RET is JMP R7, and R7's field alone selects RET. -/
theorem jumpToRegister : Obligations.JumpToRegister := by
  refine ⟨fun base i s hi => ?_, fun w hop => (decode_of_opcode hop).trans (if_congr (regOfField_eq_r7_iff _) rfl rfl)⟩
  have hexec : exec i s = exec (.jmp base) s := by
    rcases hi with rfl | ⟨rfl, rfl⟩
    · rfl
    · exact exec_ret s
  exact ⟨_, hexec.trans (exec_jmp base s), rfl, rfl⟩

/-! ## Subroutine calls (R99, R100) -/

/-- A call writes the return address to R7 and keeps every other register (R101). -/
@[simp] theorem State.call_reg (s : State) (target : Word) (q : Reg) :
    (s.call target).reg q = if q = .r7 then s.pc else s.reg q := RegFile.get_set s.regs .r7 q s.pc

/-- An instruction that answers the call of `target` meets the statement of a call. -/
theorem called_of_exec {i : Instr} {s : State} {target : Word} (h : exec i s = .next (s.call target)) :
    ∃ t, exec i s = .next t ∧ t.pc = target ∧ t.reg .r7 = s.pc ∧ RegsKeptBut [.r7] s t ∧ t.flag = s.flag ∧
      CellsKept s t ∧ EngineKept s t ∧ t.draws = s.draws := by
  have hothers : RegsKeptBut [.r7] s (s.call target) := fun r hr => by
    rw [State.call_reg, if_neg (List.ne_of_not_mem_cons hr)]
  have hengine : EngineKept s (s.call target) := ⟨rfl, rfl, rfl, rfl, rfl, rfl⟩
  exact ⟨_, h, rfl, rfl, hothers, rfl, fun _ => rfl, hengine, rfl⟩

/-- JSR calls PC plus the signed offset (R99). -/
theorem exec_jsr (off11 : BitVec 11) (s : State) :
    exec (.jsr off11) s = .next (s.call (s.pc + off11.signExtend 16)) := by
  rw [← s.pcOff11_eq]
  rfl

/-- JSRR calls the old content of the base, also where the base is R7 (R100). -/
theorem exec_jsrr (base : Reg) (s : State) : exec (.jsrr base) s = .next (s.call (s.reg base)) := rfl

/-- Settles O40: `exec_jsr` is a call of the PC-relative target, and mode bit 1 selects JSR. -/
theorem callPcRelative : Obligations.CallPcRelative :=
  ⟨fun off11 s => called_of_exec (exec_jsr off11 s), fun _ hop hmode => (decode_of_opcode hop).trans (if_pos hmode)⟩

/-- Settles O41: `exec_jsrr` is a call of the old base, and mode bit 0 selects JSRR. -/
theorem callThroughRegister : Obligations.CallThroughRegister :=
  ⟨fun base s => called_of_exec (exec_jsrr base s),
    fun _ hop hmode => (decode_of_opcode hop).trans (if_neg (ne_true_of_eq_false hmode))⟩

end Sys2Proof.Machine

/-! SUPPORT and PROOFS of the family 45_trap_reserved: the console calls GETC and OUT, and the loop of PUTS and PUTSP
against the spec's loop without a bound. -/

namespace Sys2Proof.Machine

/-! ## The bytes of a word (R107, R110) -/

/-- The low byte of a word as a number. -/
theorem lowByte_eq_ofNat (w : Word) : lowByte w = BitVec.ofNat 8 w.toNat := by
  simp [lowByte, BitVec.extractLsb'_eq_extractLsb, BitVec.toNat_eq]

/-- The high byte of a word as a number. -/
theorem toNat_highByte (w : Word) : (highByte w).toNat = w.toNat / 256 := by
  have hlt : w.toNat / 256 < 256 := by omega
  simp [highByte, BitVec.extractLsb'_toNat, Nat.shiftRight_eq_div_pow, Nat.mod_eq_of_lt hlt]

/-- What PUTSP writes for a word, in arithmetic (R110). -/
theorem stringBytes_putsp (w : Word) : stringBytes .putsp w =
    BitVec.ofNat 8 w.toNat :: if w.toNat / 256 = 0 then [] else [BitVec.ofNat 8 (w.toNat / 256)] := by
  have hhigh : highByte w = BitVec.ofNat 8 (w.toNat / 256) := by
    rw [← toNat_highByte, BitVec.ofNat_toNat, BitVec.setWidth_eq]
  have hzero : highByte w = 0#8 ↔ w.toNat / 256 = 0 := by
    rw [← toNat_highByte, ← BitVec.toNat_inj]
    rfl
  rw [stringBytes, putspBytes, lowByte_eq_ofNat]
  simp only [hzero]
  split
  · rfl
  · rw [hhigh]

/-! ## GETC and OUT (R106, R107) -/

/-- After the write of R7 a write of R0 leaves the service frame but for R0. -/
theorem ServiceFrame.writeReg_r0 {s t : State} (h : ServiceFrame [] s t) (v : Word) :
    ServiceFrame [.r0] s (t.writeReg .r0 v) := by
  obtain ⟨hr7, hpc, hflag, hregs, hcells, hmode⟩ := h
  refine ⟨hr7, hpc, hflag, fun r hr => ?_, hcells, hmode⟩
  obtain ⟨hne7, hne0⟩ : r ≠ .r7 ∧ r ≠ .r0 := by simpa using hr
  rw [State.writeReg_reg, if_neg hne0]
  exact hregs r (by simpa using hne7)

/-- With a byte held GETC and IN take it (R104). -/
theorem State.readChar_held {s : State} {b : Byte} {rest : List Byte} (h : s.input = b :: rest)
    (echo : Byte → List Byte) :
    s.readChar echo = .next ((({ s with input := rest } : State).emit (echo b)).writeReg .r0 (b.setWidth 16)) := by
  have hnext : s.nextInput = some (b, { s with input := rest }) := by simp [State.nextInput, h]
  rw [State.readChar, hnext]

/-- With no byte held and the console not ended GETC and IN take a free byte (R104, D11). -/
theorem State.readChar_drawn {s : State} (hin : s.input = []) (hend : s.inputEnded = false)
    (echo : Byte → List Byte) : s.readChar echo =
      .next ((({ s with draws := s.draws + 1 } : State).emit (echo (Config.inputByte s.draws))).writeReg .r0
        ((Config.inputByte s.draws).setWidth 16)) := by
  have hnext : s.nextInput = some (Config.inputByte s.draws, { s with draws := s.draws + 1 }) := by
    simp [State.nextInput, hin, hend]
  rw [State.readChar, hnext]

/-- Both forms of GETC write R7 and read a byte without an echo (R106). -/
theorem exec_getc {i : Instr} (hi : i = .getc ∨ i = .trap 0x20) (s : State) :
    exec i s = s.trapEntry.readChar (fun _ => []) := by
  rcases hi with rfl | rfl <;> rfl

/-- Both forms of OUT write R7 and emit the low byte of R0 (R107). -/
theorem exec_out {i : Instr} (hi : i = .out ∨ i = .trap 0x21) (s : State) :
    exec i s = .next (s.trapEntry.emit [lowByte (s.reg .r0)]) := by
  rcases hi with rfl | rfl <;> rfl

/-- Settles O42: after the write of R7 the byte is the first held, or a free one, and goes to R0 only. -/
theorem getcReadsByte : Obligations.GetcReadsByte := by
  have hbyte : ∀ b : Byte, (b.setWidth 16).toNat = b.toNat := fun b => BitVec.toNat_setWidth_of_le (by omega)
  refine fun i s hi => ⟨fun b rest hin => ?held, fun hin hend => ?drawn⟩
  case held =>
    exact ⟨_, (exec_getc hi s).trans (State.readChar_held (s := s.trapEntry) hin _), hbyte b, rfl, List.append_nil _,
      rfl, rfl, rfl, rfl, s.trapEntry_serviceFrame.writeReg_r0 _⟩
  case drawn =>
    exact ⟨_, _, (exec_getc hi s).trans (State.readChar_drawn (s := s.trapEntry) hin hend _), hbyte _, hin,
      List.append_nil _, rfl, hend, rfl, s.trapEntry_serviceFrame.writeReg_r0 _⟩

/-- Settles O43: after the write of R7 only the trace changes. -/
theorem outWritesLowByte : Obligations.OutWritesLowByte := fun _ s hi =>
  ⟨_, exec_out hi s, by simp [lowByte_eq_ofNat, State.trapEntry], rfl, rfl, rfl, rfl, rfl, s.trapEntry_serviceFrame⟩

/-! ## A string read plainly (R108, R110) -/

/-- A string begins at its address. -/
theorem wordsAbove_zero (a : Word) : wordsAbove a 0 = a := by simp [wordsAbove]

/-- A string past its first word, counted from the word after it. -/
theorem wordsAbove_succ (a : Word) (j : Nat) : wordsAbove (a + 1#16) j = wordsAbove a (j + 1) := by
  simp only [wordsAbove]
  bv_omega

/-- A string loop may read one lap of memory at least. -/
theorem State.scanCells_le_scanBound (s : State) : scanCells ≤ s.scanBound := by
  unfold State.scanBound
  split
  · exact le_rfl
  · split
    · exact Nat.le_mul_of_pos_right _ (Nat.succ_pos _)
    · exact le_rfl

/-- A scan over `k` non-zero cells and then a zero cell, none of them a draw, emits the bytes of the `k` cells in order
and ends. -/
theorem scanString_plain {f : StringForm} {k fuel : Nat} {a : Word} {s : State} (hfuel : k < fuel)
    (hcells : ∀ j < k, s.cell (wordsAbove a j) ≠ 0) (hend : s.cell (wordsAbove a k) = 0)
    (hplain : ∀ j ≤ k, s.readIsDraw (wordsAbove a j) = false) :
    scanString f fuel a s =
      (s.emit ((List.range k).flatMap fun j => stringBytes f (s.cell (wordsAbove a j)))).setPrinting none := by
  induction k generalizing a s fuel with
  | zero =>
    obtain ⟨fuel, rfl⟩ := Nat.exists_eq_add_one_of_ne_zero hfuel.ne'
    have hplain0 := hplain 0 le_rfl
    rw [wordsAbove_zero] at hend hplain0
    rw [scanString_stop hplain0 hend]
    simp [State.emit]
  | succ k ih =>
    obtain ⟨fuel, rfl⟩ := Nat.exists_eq_add_one_of_ne_zero (Nat.ne_zero_of_lt hfuel)
    have hcell0 := hcells 0 (by omega)
    have hplain0 := hplain 0 (by omega)
    rw [wordsAbove_zero] at hcell0 hplain0
    have hrest := ih (s := s.emit (stringBytes f (s.cell a))) (a := a + 1#16) (Nat.lt_of_succ_lt_succ hfuel)
      (fun j hj => by simpa [wordsAbove_succ] using hcells (j + 1) (by omega))
      (by simpa [wordsAbove_succ] using hend)
      (fun j hj => by simpa [wordsAbove_succ] using hplain (j + 1) (by omega))
    rw [scanString_go hplain0 hcell0, hrest]
    simp [List.range_succ_eq_map, List.flatMap_map, wordsAbove_zero, wordsAbove_succ, State.emit, State.cell]

/-- A call of PUTS or PUTSP on a string read plainly emits the bytes of its words and ends in one step. -/
theorem State.printString_plain {s : State} {k : Nat} (h : StringAtR0 s k) (f : StringForm) :
    s.printString f = .next ((s.emit
      ((List.range k).flatMap fun j => stringBytes f (s.cell (wordsAbove (s.reg .r0) j)))).setPrinting none) := by
  obtain ⟨hk, hcells, hend, hplain⟩ := h
  rw [State.printString, scanString_plain (hk.trans_le s.scanCells_le_scanBound) hcells hend hplain]

/-! ## The scan and the spec's unbounded loop (R108, R110) -/

/-- Recording again what is recorded changes nothing. -/
theorem State.setPrinting_eq_self {s : State} {p : Option StringForm} (h : s.printing = p) : s.setPrinting p = s := by
  rw [State.setPrinting, ← h]

/-- The spec's loop keeps the record of whether a string loop is unfinished. -/
theorem StringLoop.printing_eq {bytesOf : Word → List Byte} {a : Word} {s t : State} (h : StringLoop bytesOf a s t) :
    t.printing = s.printing := by
  induction h with
  | stop _ => exact State.memRead_printing _ _
  | more _ _ ih => simpa using ih

/-- Where a scan ends, so does the spec's loop. -/
theorem exists_stringLoop_of_scanString {f : StringForm} {fuel : Nat} {a : Word} {s : State}
    (h : (scanString f fuel a s).printing = none) : ∃ t, StringLoop (stringBytes f) a s t := by
  induction fuel generalizing a s with
  | zero => cases h
  | succ fuel ih =>
    by_cases hz : (s.memRead a).1 = 0#16
    · exact ⟨_, .stop hz⟩
    · rw [scanString_nonzero hz] at h
      obtain ⟨t, ht⟩ := ih h
      exact ⟨t, .more hz ht⟩

/-- A scan that ends does so where the spec's loop does. -/
theorem StringLoop.scanString_eq {f : StringForm} {fuel : Nat} {a : Word} {s t : State}
    (h : StringLoop (stringBytes f) a s t) (hends : (scanString f fuel a s).printing = none) :
    scanString f fuel a s = t.setPrinting none := by
  induction h generalizing fuel with
  | stop hz =>
    cases fuel with
    | zero => cases hends
    | succ fuel => exact scanString_zero hz
  | more hz _ ih =>
    cases fuel with
    | zero => cases hends
    | succ fuel =>
      rw [scanString_nonzero hz] at hends ⊢
      exact ih hends

/-- A read does not change which later reads are draws. -/
@[simp] theorem State.memRead_readIsDraw (s : State) (a b : Word) :
    (s.memRead a).2.readIsDraw b = s.readIsDraw b := by
  simp [State.readIsDraw]

/-- Where the spec's loop ends, some cell that is read plainly holds zero, or a draw of zero comes. -/
theorem StringLoop.zero_cell_or_draw {bytesOf : Word → List Byte} {a : Word} {s t : State}
    (h : StringLoop bytesOf a s t) :
    (∃ b, s.readIsDraw b = false ∧ s.cell b = 0) ∨ (s.mmioMode = .any ∧ ∃ k, untilZero s.draws = some k) := by
  induction h with
  | @stop a s hz =>
    cases hd : s.readIsDraw a with
    | false =>
      rw [State.memRead_plain hd] at hz
      exact .inl ⟨a, hd, hz⟩
    | true =>
      rw [State.memRead_draw hd] at hz
      obtain ⟨hany, _⟩ : s.mmioMode = .any ∧ reservedIo a = true := by simpa [State.readIsDraw] using hd
      exact .inr ⟨hany, 0, (mmioWord_eq_zero _).1 hz⟩
  | @more a s t hnz _ ih =>
    cases hd : s.readIsDraw a with
    | false =>
      rw [State.memRead_plain hd] at ih
      exact ih
    | true =>
      rw [State.memRead_draw hd] at ih
      refine ih.imp_right fun ⟨hany, k, hk⟩ => ⟨hany, Option.ne_none_iff_exists'.1 fun hnone => ?_⟩
      rw [State.emit_draws, untilZero_none hnone] at hk
      cases hk

/-- A scan that may read as far as a zero cell, read plainly, ends. -/
theorem scanString_ends_of_cell {f : StringForm} {j fuel : Nat} {a : Word} {s : State} (hj : j < fuel)
    (hplain : s.readIsDraw (wordsAbove a j) = false) (hcell : s.cell (wordsAbove a j) = 0) :
    (scanString f fuel a s).printing = none := by
  induction fuel generalizing a s j with
  | zero => cases hj
  | succ fuel ih =>
    by_cases hz : (s.memRead a).1 = 0#16
    · rw [scanString_zero hz, State.setPrinting_printing]
    · rw [scanString_nonzero hz]
      cases j with
      | zero =>
        rw [wordsAbove_zero] at hplain hcell
        rw [State.memRead_plain hplain] at hz
        exact absurd hcell hz
      | succ j =>
        refine ih (j := j) (Nat.lt_of_succ_lt_succ hj) ?_ ?_
        · simpa [wordsAbove_succ] using hplain
        · simpa [wordsAbove_succ] using hcell

/-- A scan under ANY ends within one lap for each draw up to the next draw of zero, since each lap reads the reserved
address 0xFE00. -/
theorem scanString_ends_of_draw {f : StringForm} {k fuel : Nat} {a : Word} {s : State} (hany : s.mmioMode = .any)
    (hk : untilZero s.draws = some k) (hfuel : scanCells * k + (0xFE00#16 - a).toNat < fuel) :
    (scanString f fuel a s).printing = none := by
  induction fuel generalizing a s k with
  | zero => cases hfuel
  | succ fuel ih =>
    by_cases hz : (s.memRead a).1 = 0#16
    · rw [scanString_zero hz, State.setPrinting_printing]
    rw [scanString_nonzero hz]
    cases hd : s.readIsDraw a with
    | false =>
      have hne : a ≠ 0xFE00#16 := by
        rintro rfl
        simp [State.readIsDraw, hany, reservedIo] at hd
      have hcloser : (0xFE00#16 - a).toNat = (0xFE00#16 - (a + 1#16)).toNat + 1 := by bv_omega
      rw [State.memRead_plain hd]
      exact ih hany hk (by omega)
    | true =>
      rw [State.memRead_draw hd] at hz ⊢
      cases k with
      | zero => exact absurd ((mmioWord_eq_zero _).2 hk) hz
      | succ k =>
        have hlap : (0xFE00#16 - (a + 1#16)).toNat < scanCells := (0xFE00#16 - (a + 1#16)).isLt
        rw [Nat.mul_succ] at hfuel
        exact ih hany (untilZero_succ hk) (by omega)

/-- Where the spec's loop ends, a scan of `State.scanBound` words ends. -/
theorem StringLoop.scanString_ends {bytesOf : Word → List Byte} {a : Word} {s t : State}
    (h : StringLoop bytesOf a s t) (f : StringForm) : (scanString f s.scanBound a s).printing = none := by
  rcases h.zero_cell_or_draw with ⟨b, hplain, hcell⟩ | ⟨hany, k, hk⟩
  · have hb : wordsAbove a (b - a).toNat = b := by
      rw [wordsAbove]
      bv_omega
    rw [← hb] at hplain hcell
    exact scanString_ends_of_cell ((b - a).isLt.trans_le s.scanCells_le_scanBound) hplain hcell
  · have hbound : s.scanBound = scanCells * (k + 1) := by simp [State.scanBound, hany, hk]
    have hlap : (0xFE00#16 - a).toNat < scanCells := (0xFE00#16 - a).isLt
    exact scanString_ends_of_draw hany hk (by rw [hbound, Nat.mul_succ]; omega)

/-- A call of PUTS or PUTSP from a state in which no string loop goes on completes, in one step, exactly where the
spec's unbounded loop ends, and in the same state. -/
theorem State.printString_completes_iff {s t : State} (hp : s.printing = none) (f : StringForm) :
    s.printString f = .next t ∧ t.printing = none ↔ StringLoop (stringBytes f) (s.reg .r0) s t := by
  constructor
  · rintro ⟨hnext, hends⟩
    obtain rfl := Host.Outcome.next.inj hnext
    obtain ⟨u, hu⟩ := exists_stringLoop_of_scanString hends
    rwa [hu.scanString_eq hends, State.setPrinting_eq_self (hu.printing_eq.trans hp)]
  · intro hloop
    have hprint : t.printing = none := hloop.printing_eq.trans hp
    refine ⟨?_, hprint⟩
    rw [State.printString, hloop.scanString_eq (hloop.scanString_ends f), State.setPrinting_eq_self hprint]

/-! ## PUTSP (R110) -/

/-- Both forms of PUTSP write R7 and print the packed string (R110). -/
theorem exec_putsp {i : Instr} (hi : i = .putsp ∨ i = .trap 0x24) (s : State) :
    exec i s = s.trapEntry.printString .putsp := by
  rcases hi with rfl | rfl <;> rfl

/-- Settles O46: after the write of R7 a plain string is printed in one scan, and any scan completes exactly where the
spec's loop ends. -/
theorem putspWritesPackedString : Obligations.PutspWritesPackedString := by
  unfold Obligations.PutspWritesPackedString
  simp only [← stringBytes_putsp]
  refine ⟨fun i s k hi hstring => ?plain, fun i s t hi hp => ?loop⟩
  case plain =>
    have hentry : StringAtR0 s.trapEntry k := hstring
    exact ⟨_, (exec_putsp hi s).trans (State.printString_plain hentry _), rfl, rfl, rfl, rfl, rfl, rfl,
      s.trapEntry_serviceFrame⟩
  case loop =>
    rw [exec_putsp hi]
    exact s.trapEntry.printString_completes_iff hp .putsp

end Sys2Proof.Machine


/-! SUPPORT and PROOFS of the family other, the encodings: decoding is inverse to encoding, every word is an
instruction, and what the ignored bits and the decoder unit do. -/

namespace Sys2Proof.Machine

/-! ## Decoding what was encoded (R53, R57) -/

/-- The encoder writes the instruction's opcode into bits [15:12] (R57, R61). -/
theorem encode_opcode (i : Instr) : bits (encode i) 12 4 = opcodeNumber (opcodeOfInstr i) := by
  cases i <;> simp [encode, opcodeOfInstr]

/-- Decoding an encoded instruction is selecting a form of the instruction's own opcode (R60). -/
theorem decode_encode_eq_form (i : Instr) : decode (encode i) = decodeForm (opcodeOfInstr i) (encode i) :=
  decode_of_opcode (by rw [encode_opcode, opcodeOf_opcodeNumber])

/-- A vector that is no service's is decoded to TRAP with that vector (R105). -/
theorem decodeTrap_of_badVector {v : BitVec 8} (hv : serviceVector v = false) : decodeTrap v = .trap v := by
  simp [decodeTrap, ne_of_serviceVector hv, serviceVector]

/-- Settles O14: each format's fields are read back, and well-formedness keeps BR, JMP and TRAP off the words that
decode to NOP, RET and the service calls. -/
theorem decodeEncodeAgree : Obligations.DecodeEncodeAgree := by
  intro i hi
  rw [decode_encode_eq_form]
  cases i with
  | br cond off9 =>
    have hcond : cond ≠ 0#3 := by simpa [Instr.wf] using hi
    simp [opcodeOfInstr, encode, decodeForm, hcond]
  | jmp base =>
    have hbase : base ≠ .r7 := by simpa [Instr.wf] using hi
    simp [opcodeOfInstr, encode, decodeForm, hbase]
  | trap v =>
    have hv : serviceVector v = false := by simpa [Instr.wf] using hi
    simp [opcodeOfInstr, encode, decodeForm, decodeTrap_of_badVector hv]
  | getc | out | puts | inChar | putsp | halt => rfl
  | _ => simp [opcodeOfInstr, encode, decodeForm]

/-! ## Every word is an instruction (R53, R60, R64) -/

/-- The form of a TRAP word is well formed: each service's vector goes to the service's own term (R63, R105). -/
theorem decodeTrap_wf (v : BitVec 8) : (decodeTrap v).wf := by
  unfold decodeTrap
  split_ifs
  iterate 6 rfl
  have hv : serviceVector v = false := by
    simp only [← BitVec.toNat_inj, BitVec.toNat_ofNat] at *
    rw [serviceVector_eq_false_iff]
    omega
  simp [Instr.wf, hv]

/-- The form of a word is well formed: NOP, RET and the services are split off by the decoder (R67). -/
theorem decodeForm_wf (o : Opcode) (w : Word) : (decodeForm o w).wf := by
  cases o with
  | br | jmp =>
    simp only [decodeForm]
    split <;> simp [Instr.wf, *]
  | add | and | jsr =>
    simp only [decodeForm]
    split <;> rfl
  | trap => exact decodeTrap_wf _
  | ld | st | ldr | str | rti | not | ldi | sti | res | lea => rfl

/-- Every form of a TRAP word has the canonical word of its vector. -/
theorem encode_decodeTrap (v : BitVec 8) : encode (decodeTrap v) = encodeTrap v := by
  unfold decodeTrap
  split_ifs <;> simp [encode, *]

/-- A mask on a placed field is the mask's own field on it. -/
theorem placed_and {n : Nat} (f : BitVec n) (lo : Nat) (M : Word) :
    placed f lo &&& M = placed (f &&& bits M lo n) lo := by
  refine BitVec.eq_of_getLsbD_eq fun i hi => ?_
  simp only [placed, bits, BitVec.getLsbD_and, BitVec.getLsbD_shiftLeft, BitVec.getLsbD_setWidth,
    BitVec.getLsbD_extractLsb']
  by_cases hlo : i < lo
  · simp [hlo]
  · rw [Nat.add_sub_cancel' (Nat.le_of_not_lt hlo)]
    by_cases hn : i - lo < n
    · simp [hn, Bool.and_assoc]
    · simp [hn, BitVec.getLsbD_of_ge _ _ (Nat.le_of_not_lt hn)]

/-- A word agrees under a mask with one of the same opcode and a format with registers in [11:9] and [8:6] where the
three fields below the opcode agree under the mask's. -/
theorem encodeBase_agrees {w M : Word} {o : Opcode} {a b : BitVec 3} {low : BitVec 6}
    (hop : opcodeOf (bits w 12 4) = o) (ha : (bits w 9 3 ^^^ a) &&& bits M 9 3 = 0)
    (hb : (bits w 6 3 ^^^ b) &&& bits M 6 3 = 0) (hlow : (bits w 0 6 ^^^ low) &&& bits M 0 6 = 0) :
    (w ^^^ encodeBase o a b low) &&& M = 0 := by
  have hxor : w ^^^ encodeBase o a b low =
      placed (bits w 9 3 ^^^ a) 9 ||| placed (bits w 6 3 ^^^ b) 6 ||| placed (bits w 0 6 ^^^ low) 0 := by
    ext i hi
    simp only [encodeBase, placed, ← hop, opcodeNumber_opcodeOf]
    interval_cases i <;> simp [bits]
  rw [hxor, BitVec.and_or_distrib_right, BitVec.and_or_distrib_right, placed_and, placed_and, placed_and, ha, hb, hlow]
  rfl

/-- A word agrees under a mask with one of the same opcode and a format with twelve bits below it where those agree
under the mask's. -/
theorem encodeLow_agrees {w M : Word} {o : Opcode} {low : BitVec 12} (hop : opcodeOf (bits w 12 4) = o)
    (hlow : (bits w 0 12 ^^^ low) &&& bits M 0 12 = 0) : (w ^^^ encodeLow o low) &&& M = 0 := by
  have hxor : w ^^^ encodeLow o low = placed (bits w 0 12 ^^^ low) 0 := by
    ext i hi
    simp only [encodeLow, placed, ← hop, opcodeNumber_opcodeOf]
    interval_cases i <;> simp [bits]
  rw [hxor, placed_and, hlow]
  rfl

/-- The low bits of a word with mode bit [5] set, put together from its immediate (R54). -/
theorem bits6_of_mode5 {w : Word} (h : w.getLsbD 5 = true) :
    (bits w 0 5).setWidth 6 ||| 0b100000#6 = bits w 0 6 := by
  have h5 : w[5] = true := h
  ext i hi
  interval_cases i <;> simp [bits, h5]

/-- The low bits of a word with mode bit [11] set, put together from its offset (R54). -/
theorem bits12_of_mode11 {w : Word} (h : w.getLsbD 11 = true) :
    (bits w 0 11).setWidth 12 ||| 0x800#12 = bits w 0 12 := by
  have h11 : w[11] = true := h
  ext i hi
  interval_cases i <;> simp [bits, h11]

/-- The low bits of a word with mode bit [5] clear agree with its SR2 field but in the ignored bits [4:3] (R64). -/
theorem bits6_agrees_of_mode5 {w : Word} (h : w.getLsbD 5 = false) :
    (bits w 0 6 ^^^ (bits w 0 3).setWidth 6) &&& 0b100111#6 = 0 := by
  have h5 : w[5] = false := h
  ext i hi
  interval_cases i <;> simp [bits, h5]

/-- The field above a word's base register is 0 in the bit that is not ignored, where mode bit [11] is clear (R64). -/
theorem bits3_agrees_of_mode11 {w : Word} (h : w.getLsbD 11 = false) : (bits w 9 3 ^^^ 0#3) &&& 0b100#3 = 0 := by
  have h11 : w[11] = false := h
  ext i hi
  interval_cases i <;> simp [bits, h11]

/-- The low bits of a TRAP word agree with its vector but in the ignored bits [11:8] (R64). -/
theorem bits12_agrees_vector (w : Word) : (bits w 0 12 ^^^ (bits w 0 8).setWidth 12) &&& 0x0FF#12 = 0 := by
  ext i hi
  interval_cases i <;> simp [bits]

/-- Both forms of a JMP word have the canonical word of its base field (R67). -/
theorem encode_decodeForm_jmp (w : Word) :
    encode (decodeForm .jmp w) = encodeBase .jmp 0#3 (bits w 6 3) 0#6 := by
  simp only [decodeForm]
  split
  · rw [encode, ← ‹regOfField (bits w 6 3) = .r7›, fieldOfReg_regOfField]
  · rw [encode, fieldOfReg_regOfField]

/-- The canonical word of a word's form agrees with it on every bit that its format gives a meaning; where no bit is
ignored it is the word itself. -/
theorem encode_decodeForm_agrees {w : Word} {o : Opcode} (hop : opcodeOf (bits w 12 4) = o) :
    (w ^^^ encode (decodeForm o w)) &&& significantBits w = 0 := by
  have hself : ∀ M : Word, encode (decodeForm o w) = w → (w ^^^ encode (decodeForm o w)) &&& M = 0 := fun M h => by
    rw [h, BitVec.xor_self]
    exact BitVec.zero_and
  have hpcr := encodePcr_fields w
  have hbase := encodeBase_fields w
  have hlow := encodeLow_fields w
  rw [hop] at hpcr hbase hlow
  unfold significantBits
  rw [hop]
  cases o with
  | br =>
    refine hself _ ?_
    simp only [decodeForm]
    split
    · rw [encode, ← ‹bits w 9 3 = 0#3›, hpcr]
    · exact hpcr
  | ld | st | ldi | sti | lea => exact hself _ (by simp only [decodeForm, encode, fieldOfReg_regOfField, hpcr])
  | ldr | str => exact hself _ (by simp only [decodeForm, encode, fieldOfReg_regOfField, hbase])
  | rti | res => exact hself _ hlow
  | add | and =>
    cases hmode : w.getLsbD 5 with
    | true =>
      refine hself _ ?_
      simp only [decodeForm, hmode, if_true, encode, encodeOpi, fieldOfReg_regOfField, bits6_of_mode5 hmode, hbase]
    | false =>
      simp only [decodeForm, hmode, Bool.false_eq_true, if_false, encode, encodeOpr, fieldOfReg_regOfField]
      exact encodeBase_agrees hop (by simp) (by simp) (bits6_agrees_of_mode5 hmode)
  | jsr =>
    cases hmode : w.getLsbD 11 with
    | true =>
      refine hself _ ?_
      simp only [decodeForm, hmode, if_true, encode, bits12_of_mode11 hmode, hlow]
    | false =>
      simp only [decodeForm, hmode, Bool.false_eq_true, if_false, encode, fieldOfReg_regOfField]
      exact encodeBase_agrees hop (bits3_agrees_of_mode11 hmode) (by simp) BitVec.and_zero
  | not =>
    simp only [decodeForm, encode, fieldOfReg_regOfField]
    exact encodeBase_agrees hop (by simp) (by simp) BitVec.and_zero
  | jmp =>
    simp only [encode_decodeForm_jmp]
    exact encodeBase_agrees hop BitVec.and_zero (by simp) BitVec.and_zero
  | trap =>
    simp only [decodeForm, encode_decodeTrap, encodeTrap]
    exact encodeLow_agrees hop (bits12_agrees_vector w)

/-- Settles O15: the decoder splits the special rows' words off the general rows, and each field of a format is written
back where it was read. -/
theorem everyWordIsAnInstruction : Obligations.EveryWordIsAnInstruction := fun w =>
  ⟨decodeForm_wf _ w, encode_decodeForm_agrees rfl⟩

/-! ## The decoder unit (R59) -/

/-- A field of a word as a number. -/
theorem toNat_bits (w : Word) (lo n : Nat) : (bits w lo n).toNat = w.toNat / 2 ^ lo % 2 ^ n := by
  rw [bits, BitVec.extractLsb'_toNat, Nat.shiftRight_eq_div_pow]

/-- The opcode field as a number: what is above the twelve bits below it. -/
theorem toNat_bits_opcode (w : Word) : (bits w 12 4).toNat = w.toNat / 4096 := by
  rw [toNat_bits]
  omega

/-- A sign-extended field has the field's signed value (R68). -/
theorem sextContract_bits_toInt (w : Word) {n : Nat} (h1 : 1 ≤ n) (hn : n ≤ 16) :
    (sextContract n ((bits w 0 n).setWidth 16)).toInt = (bits w 0 n).toInt := by
  rw [sextContract_eq_signExtend h1 _ hn, BitVec.toInt_signExtend_of_le hn]

/-- One line of sixteen is high: the one whose number is shifted to. -/
theorem getLsbD_one_shiftLeft {n : Nat} (hn : n < 16) (i : Nat) : (1#16 <<< n).getLsbD i = decide (i = n) := by
  rw [BitVec.getLsbD_shiftLeft, BitVec.getLsbD_one, Bool.eq_iff_iff]
  simp only [Bool.and_eq_true, Bool.not_eq_true', decide_eq_true_eq, decide_eq_false_iff_not]
  omega

/-- Settles O17: the outputs are the word's fields, as numbers or sign-extended. -/
theorem decoderUnitOutputs : Obligations.DecoderUnitOutputs := by
  intro w
  have hop := toNat_bits_opcode w
  refine ⟨hop, fun i => ?sel, toNat_bits w 9 3, toNat_bits w 6 3, ?regLow, rfl, rfl,
    sextContract_bits_toInt w (by omega) (by omega), sextContract_bits_toInt w (by omega) (by omega),
    sextContract_bits_toInt w (by omega) (by omega), sextContract_bits_toInt w (by omega) (by omega), ?vector⟩
  case sel =>
    rw [← hop]
    exact getLsbD_one_shiftLeft (bits w 12 4).isLt i
  case regLow | vector => simp [decoderUnit, toNat_bits]

/-- Settles O19: a word's instruction has the opcode its bits [15:12] select, which is looked up in the default map. -/
theorem opcodeMapIsTheDefault : Obligations.OpcodeMapIsTheDefault := by
  intro w
  have hlt : w.toNat / 4096 < opcodeMap.length := by
    have := w.isLt
    simp only [opcodeMap, List.length_cons, List.length_nil]
    omega
  show _ = opcodeMap[w.toNat / 4096]?
  rw [List.getElem?_eq_getElem hlt, decode, opcodeOfInstr_decodeForm, opcodeOf, toNat_bits_opcode,
    List.getD_eq_getElem _ _ hlt]

/-! ## Ignored bits (R64, D5) -/

/-- The bits of a word under a mask fix each field that the mask covers. -/
theorem bits_eq_of_mask {w w' M : Word} (h : (w ^^^ w') &&& M = 0) (lo n : Nat)
    (hM : bits M lo n = BitVec.allOnes n) : bits w' lo n = bits w lo n := by
  have hxor : bits w lo n ^^^ bits w' lo n = 0 := by
    calc bits w lo n ^^^ bits w' lo n
      _ = (bits w lo n ^^^ bits w' lo n) &&& bits M lo n := by rw [hM, BitVec.and_allOnes]
      _ = bits ((w ^^^ w') &&& M) lo n := by simp [bits, BitVec.extractLsb'_and, BitVec.extractLsb'_xor]
      _ = 0 := by simp [h, bits]
  exact (BitVec.xor_eq_zero_iff.1 hxor).symm

/-- A mask that covers a bit fixes it. -/
theorem getLsbD_eq_of_mask {w w' M : Word} (h : (w ^^^ w') &&& M = 0) {i : Nat} (hM : M.getLsbD i = true) :
    w'.getLsbD i = w.getLsbD i := by
  have hbit : ((w ^^^ w') &&& M).getLsbD i = false := by rw [h]; exact BitVec.getLsbD_zero
  rw [BitVec.getLsbD_and, hM, Bool.and_true, BitVec.getLsbD_xor, bne_eq_false_iff_eq] at hbit
  exact hbit.symm

/-- Every format gives the opcode field a meaning (R53). -/
theorem opcode_significant (w : Word) : bits (significantBits w) 12 4 = BitVec.allOnes 4 := by
  unfold significantBits
  cases opcodeOf (bits w 12 4) with
  | add | and | jsr =>
    dsimp only
    split <;> rfl
  | _ =>
    dsimp only
    rfl

/-- Words of an opcode that differ in ignored bits only take the same form of it, but for RTI and RES, which record the
whole word (R64). -/
theorem decodeForm_eq_of_significant {w w' : Word} {o : Opcode} (hop : opcodeOf (bits w 12 4) = o)
    (h : (w ^^^ w') &&& significantBits w = 0) (hrti : o ≠ .rti) (hres : o ≠ .res) :
    decodeForm o w' = decodeForm o w := by
  unfold significantBits at h
  rw [hop] at h
  cases o with
  | rti => exact absurd rfl hrti
  | res => exact absurd rfl hres
  | br | ld | st | ldi | sti | lea =>
    dsimp only at h
    simp only [decodeForm, bits_eq_of_mask h 9 3 rfl, bits_eq_of_mask h 0 9 rfl]
  | ldr | str =>
    dsimp only at h
    simp only [decodeForm, bits_eq_of_mask h 9 3 rfl, bits_eq_of_mask h 6 3 rfl, bits_eq_of_mask h 0 6 rfl]
  | not =>
    dsimp only at h
    simp only [decodeForm, bits_eq_of_mask h 9 3 rfl, bits_eq_of_mask h 6 3 rfl]
  | jmp =>
    dsimp only at h
    simp only [decodeForm, bits_eq_of_mask h 6 3 rfl]
  | trap =>
    dsimp only at h
    simp only [decodeForm, bits_eq_of_mask h 0 8 rfl]
  | add | and =>
    by_cases hmode : w.getLsbD 5
    · simp only [if_pos hmode] at h
      simp only [decodeForm, getLsbD_eq_of_mask h (i := 5) rfl, if_pos hmode, bits_eq_of_mask h 9 3 rfl,
        bits_eq_of_mask h 6 3 rfl, bits_eq_of_mask h 0 5 rfl]
    · simp only [if_neg hmode] at h
      simp only [decodeForm, getLsbD_eq_of_mask h (i := 5) rfl, if_neg hmode, bits_eq_of_mask h 9 3 rfl,
        bits_eq_of_mask h 6 3 rfl, bits_eq_of_mask h 0 3 rfl]
  | jsr =>
    by_cases hmode : w.getLsbD 11
    · simp only [if_pos hmode] at h
      simp only [decodeForm, getLsbD_eq_of_mask h (i := 11) rfl, if_pos hmode, bits_eq_of_mask h 0 11 rfl]
    · simp only [if_neg hmode] at h
      simp only [decodeForm, getLsbD_eq_of_mask h (i := 11) rfl, if_neg hmode, bits_eq_of_mask h 6 3 rfl]

/-- Settles O16: the mask fixes the opcode and the fields of its form, and RTI and RES change the run state only. -/
theorem ignoredBitsAreIgnored : Obligations.IgnoredBitsAreIgnored := by
  refine ⟨fun w w' h => ?_, fun l l' s => ⟨⟨_, _, rfl, rfl, rfl⟩, _, _, rfl, rfl, rfl⟩⟩
  have hop' : opcodeOf (bits w' 12 4) = opcodeOf (bits w 12 4) :=
    congrArg opcodeOf (bits_eq_of_mask h 12 4 (opcode_significant w))
  by_cases hrti : opcodeOf (bits w 12 4) = .rti
  · exact .inr (.inl ⟨_, _, decode_of_opcode hrti, decode_of_opcode (hop'.trans hrti)⟩)
  by_cases hres : opcodeOf (bits w 12 4) = .res
  · exact .inr (.inr ⟨_, _, decode_of_opcode hres, decode_of_opcode (hop'.trans hres)⟩)
  exact .inl ((decode_of_opcode hop').trans (decodeForm_eq_of_significant rfl h hrti hres))

end Sys2Proof.Machine

/-! SUPPORT and PROOFS of the family other, the whole machine: every next state an instruction has, by the kind of its
update; from it who writes what, which faults there are, how a run ends, and the invariant. -/

namespace Sys2Proof.Machine

/-! ## Every next state of an instruction -/

/-- The next states of `i` from `s`, one constructor for each kind of update, with what the update says of `i`. -/
inductive ExecEffect (i : Instr) (s : State) : State → Prop where
  /-- DR and Flag are written (R72). -/
  | dest {dr : Reg} {v : Word} {n : Nat} (hregs : regsWritten i = [dr]) :
      ExecEffect i s (({ s with draws := n } : State).writeDest dr v)
  /-- PC is written (R82, R98). -/
  | goto {target : Word} (hi : opcodeOfInstr i = .br ∨ opcodeOfInstr i = .jmp) : ExecEffect i s (s.setPc target)
  /-- PC and R7 are written (R101). -/
  | call {target : Word} (hi : opcodeOfInstr i = .jsr) (hregs : regsWritten i = [.r7]) : ExecEffect i s (s.call target)
  /-- One cell is written (R95 to R97). -/
  | store {a v : Word} {n : Nat} (haddr : storeAddress i s = some a) :
      ExecEffect i s (({ s with draws := n } : State).memWrite a v)
  /-- RESERVED_OPCODE is raised (R112, R113). -/
  | reserved {o : Opcode} {low : BitVec 12} (hi : i = .rti low ∧ o = .rti ∨ i = .res low ∧ o = .res) :
      ExecEffect i s (s.reservedOpcode o low)
  /-- A byte of input goes to R0, after the write of R7 (R106, R109). -/
  | readByte {b : Byte} {inp bs : List Byte} {n : Nat} (hregs : regsWritten i = [.r7, .r0]) : ExecEffect i s
      ((({ s.trapEntry with input := inp, draws := n } : State).emit bs).writeReg .r0 (b.setWidth 16))
  /-- A string is emitted, or a part of one, after the write of R7 (R107, R108, R110). -/
  | print {bs : List Byte} {n : Nat} {p : Option StringForm} (hregs : regsWritten i = [.r7]) :
      ExecEffect i s { s.trapEntry with out := s.out ++ bs, draws := n, printing := p }
  /-- The run halts, after the write of R7 (R111). -/
  | halt {bs : List Byte} (hi : halts i) (hregs : regsWritten i = [.r7]) : ExecEffect i s (s.trapEntry.emit bs).haltRun
  /-- BAD_TRAP_VECTOR is raised, after the write of R7 (R105). -/
  | badVector {v : BitVec 8} (hi : i = .trap v) (hv : serviceVector v = false) (hregs : regsWritten i = [.r7]) :
      ExecEffect i s (s.trapEntry.raiseFault (.badTrapVector v (s.pc - 1#16)))

/-- The instructions that scan a string are the two forms of PUTS and the two of PUTSP. -/
theorem printsString_iff (i : Instr) :
    printsString i ↔ (i = .puts ∨ i = .trap 0x22) ∨ (i = .putsp ∨ i = .trap 0x24) := by
  cases i <;> simp [printsString]

/-- The instructions that run the HALT routine are its two forms. -/
theorem halts_iff (i : Instr) : halts i ↔ i = .halt ∨ i = .trap 0x25 := by
  cases i <;> simp [halts]

/-- TRAP with a bad vector writes R7 and no other register (R105). -/
theorem regsWritten_badVector {v : BitVec 8} (hv : serviceVector v = false) : regsWritten (.trap v) = [.r7] := by
  simp [regsWritten, ne_of_serviceVector hv, serviceVector]

/-- A flag-updating instruction writes DR and Flag (R72). -/
theorem exec_flagUpdating_effect {i : Instr} {s t : State} (hi : flagUpdating i = true) (h : exec i s = .next t) :
    ExecEffect i s t := by
  obtain ⟨dr, v, n, hregs, h'⟩ := exec_flagUpdating hi s
  rw [h'] at h
  cases h
  exact .dest hregs

/-- What an instruction of the TRAP opcode does follows the write of R7 (R105). -/
theorem exec_trap_effect {i : Instr} {s t : State} (hi : opcodeOfInstr i = .trap) (h : exec i s = .next t) :
    ExecEffect i s t := by
  rcases exec_trap_next hi h with ⟨hr, _, _, _, _, rfl⟩ | ⟨ho, rfl⟩ | ⟨hp, _, _, _, rfl⟩ | ⟨hh, rfl⟩ | ⟨v, rfl, hv, rfl⟩
  · exact .readByte (by rcases (readsConsole_iff i).1 hr with (rfl | rfl) | (rfl | rfl) <;> rfl)
  · exact .print (n := s.draws) (p := s.printing) (by rcases ho with rfl | rfl <;> rfl)
  · exact .print (by rcases (printsString_iff i).1 hp with (rfl | rfl) | (rfl | rfl) <;> rfl)
  · exact .halt hh (by rcases (halts_iff i).1 hh with rfl | rfl <;> rfl)
  · exact .badVector rfl hv (regsWritten_badVector hv)

/-- Every next state of every instruction is one of the effects. -/
theorem exec_effect {i : Instr} {s t : State} (h : exec i s = .next t) : ExecEffect i s t := by
  cases i with
  | addReg | addImm | andReg | andImm | not | lea | ld | ldr | ldi => exact exec_flagUpdating_effect rfl h
  | trap | getc | out | puts | inChar | putsp | halt => exact exec_trap_effect rfl h
  | br cond off9 =>
    rw [exec_br] at h
    cases h
    exact .goto (by simp [opcodeOfInstr])
  | nop off9 =>
    rw [exec_nop] at h
    cases h
    exact .goto (target := s.pc) (by simp [opcodeOfInstr])
  | jmp | ret =>
    cases h
    exact .goto (by simp [opcodeOfInstr])
  | jsr | jsrr =>
    cases h
    exact .call rfl rfl
  | st | str =>
    cases h
    exact .store (n := s.draws) rfl
  | sti sr off9 =>
    cases h
    obtain ⟨n, hn⟩ := s.memRead_state (s.pcOff9 off9)
    rw [hn]
    exact .store rfl
  | rti low =>
    cases h
    exact .reserved (.inl ⟨rfl, rfl⟩)
  | res low =>
    cases h
    exact .reserved (.inr ⟨rfl, rfl⟩)

/-! ## Who writes what (R16, R20, R40) -/

/-- What TRAP does before its dispatch writes R7 (R105). -/
@[simp] theorem State.trapEntry_reg (s : State) (q : Reg) :
    s.trapEntry.reg q = if q = .r7 then s.pc else s.reg q := State.writeReg_reg s .r7 s.pc q

/-- Settles O56: each effect writes no register but those of its instruction's row of the table. -/
theorem registerWriters : Obligations.RegisterWriters := by
  intro i s t h r hr
  have hentry : r ≠ .r7 → s.trapEntry.reg r = s.reg r := fun h7 => (s.trapEntry_reg r).trans (if_neg h7)
  cases exec_effect h with
  | dest hregs => exact (State.writeDest_reg _ _ _ r).trans (if_neg (by simpa [hregs] using hr))
  | goto | store | reserved => rfl
  | call _ hregs => exact (s.call_reg _ r).trans (if_neg (by simpa [hregs] using hr))
  | readByte hregs =>
    obtain ⟨h7, h0⟩ : r ≠ .r7 ∧ r ≠ .r0 := by simpa [hregs] using hr
    exact (State.writeReg_reg _ _ _ r).trans ((if_neg h0).trans (hentry h7))
  | print hregs | halt _ hregs | badVector _ _ hregs => exact hentry (by simpa [hregs] using hr)

/-- Settles O57: only one effect is a memory write, of the one cell at its instruction's store address. -/
theorem memoryWriters : Obligations.MemoryWriters := by
  intro i s t h a ha
  cases exec_effect h with
  | store haddr =>
    rw [haddr] at ha
    exact (State.memWrite_cell _ _ _ a).trans (if_neg fun h => ha (congrArg some h.symm))
  | dest | goto | call | reserved | readByte | print | halt | badVector => rfl

/-- An instruction of another opcode than BR, JMP and JSR leaves PC unchanged (R20). -/
theorem ExecEffect.pc_eq {i : Instr} {s t : State} (h : ExecEffect i s t)
    (hi : opcodeOfInstr i ∉ [Opcode.br, .jmp, .jsr]) : t.pc = s.pc := by
  cases h with
  | goto hgoto => rcases hgoto with h | h <;> simp [h] at hi
  | call hcall => simp [hcall] at hi
  | dest | store | reserved | readByte | print | halt | badVector => rfl

/-- Settles O58: BR, JMP, RET, JSR and JSRR write PC as their handlers say, and no other instruction does. -/
theorem programCounterWriters : Obligations.ProgramCounterWriters := by
  intro i s t h
  cases i with
  | br cond off9 =>
    rw [exec_br] at h
    cases h
    rfl
  | nop off9 =>
    rw [exec_nop] at h
    cases h
    rfl
  | jsr off11 =>
    rw [exec_jsr] at h
    cases h
    rfl
  | jmp | ret | jsrr =>
    cases h
    rfl
  | _ => exact (exec_effect h).pc_eq (by simp [opcodeOfInstr])

/-! ## Faults and the ends of a run (R76, R111, R115) -/

/-- The fault of a reserved word: the record is the opcode field, the word and its address (R112, R113). -/
theorem State.reservedOpcode_word (s : State) (w : Word) :
    s.reservedOpcode (opcodeOf (bits w 12 4)) (bits w 0 12) =
      { s with run := .faulted (.reservedOpcode (bits w 12 4) w (s.pc - 1)) } := by
  rw [State.reservedOpcode, encodeLow_fields, opcodeNumber_opcodeOf]
  rfl

/-- Settles O49: the handlers of RTI and RES put the word together again from its opcode and its low bits. -/
theorem reservedOpcodesFault : Obligations.ReservedOpcodesFault := by
  refine ⟨fun w s hop => ⟨decode_of_opcode hop, ?_⟩, fun w s hop => ⟨decode_of_opcode hop, ?_⟩, fun _ _ _ => rfl,
    fun low s => ⟨⟨_, rfl⟩, _, rfl⟩⟩
  all_goals
    rw [decode_of_opcode hop]
    refine congrArg Host.Outcome.next (Eq.trans ?_ (s.reservedOpcode_word w))
    rw [show opcodeOf (bits w 12 4) = _ from hop]

/-- A next state in which the run has faulted: the cause, the record and what else changed. -/
theorem ExecEffect.of_faulted {i : Instr} {s t : State} {r : FaultRecord} (h : ExecEffect i s t)
    (hrun : s.run = .running) (hr : t.run = .faulted r) :
    (∃ o low, (i = .rti low ∧ o = .rti ∨ i = .res low ∧ o = .res) ∧
      r = .reservedOpcode (opcodeNumber o) (encodeLow o low) (s.pc - 1) ∧ t = { s with run := .faulted r }) ∨
    ∃ v, i = .trap v ∧ serviceVector v = false ∧ r = .badTrapVector v (s.pc - 1) ∧
      t = { s.writeReg .r7 s.pc with run := .faulted r } := by
  cases h with
  | reserved hi =>
    obtain rfl := RunState.faulted.inj hr
    exact .inl ⟨_, _, hi, rfl, rfl⟩
  | badVector hi hv =>
    obtain rfl := RunState.faulted.inj hr
    exact .inr ⟨_, hi, hv, rfl, rfl⟩
  | dest | goto | call | store | readByte | print => cases hrun.symm.trans hr
  | halt => cases hr

/-- Settles O59: the two effects that raise a fault are those of RTI and RES and of a bad vector. -/
theorem faultsArePrecise : Obligations.FaultsArePrecise := by
  intro i s t r hrun h hr
  rcases (exec_effect h).of_faulted hrun hr with ⟨_, low, ⟨rfl, rfl⟩ | ⟨rfl, rfl⟩, hrec, ht⟩ | ⟨v, rfl, hv, hrec, ht⟩
  · exact ⟨hrec, ht⟩
  · exact ⟨hrec, ht⟩
  · exact ⟨(serviceVector_eq_false_iff v).1 hv, hrec, ht⟩

/-- A next state in which the run has halted was reached by HALT. -/
theorem ExecEffect.of_halted {i : Instr} {s t : State} (h : ExecEffect i s t) (hrun : s.run = .running)
    (ht : t.run = .halted) : halts i := by
  cases h with
  | halt hi => exact hi
  | dest | goto | call | store | readByte | print => cases hrun.symm.trans ht
  | reserved | badVector => cases ht

/-- The instructions that raise a fault are RTI, RES and TRAP with a bad vector (R115). -/
theorem faults_iff (i : Instr) :
    faults i ↔ (∃ low, i = .rti low ∨ i = .res low) ∨ ∃ v, i = .trap v ∧ serviceVector v = false := by
  cases i <;> simp [faults]

/-- From run state RUNNING an instruction ends in HALTED exactly if it is HALT. -/
theorem exec_halted_iff {i : Instr} {s t : State} (hrun : s.run = .running) (h : exec i s = .next t) :
    t.run = .halted ↔ halts i := by
  refine ⟨(exec_effect h).of_halted hrun, fun hi => ?_⟩
  rw [exec_halt ((halts_iff i).1 hi)] at h
  cases h
  rfl

/-- From run state RUNNING an instruction ends in FAULTED exactly if it is RTI, RES or TRAP with a bad vector. -/
theorem exec_faulted_iff {i : Instr} {s t : State} (hrun : s.run = .running) (h : exec i s = .next t) :
    (∃ r, t.run = .faulted r) ↔ faults i := by
  rw [faults_iff]
  constructor
  · rintro ⟨r, hr⟩
    rcases (exec_effect h).of_faulted hrun hr with ⟨_, low, hi, _⟩ | ⟨v, hi, hv, _⟩
    · exact .inl ⟨low, hi.imp And.left And.left⟩
    · exact .inr ⟨v, hi, hv⟩
  · rintro (⟨low, hi⟩ | ⟨v, rfl, hv⟩)
    · obtain ⟨r, h'⟩ := exec_reserved hi s
      rw [h'] at h
      cases h
      exact ⟨r, rfl⟩
    · rw [exec_trap_badVector ((serviceVector_eq_false_iff v).1 hv)] at h
      cases h
      exact ⟨_, rfl⟩

/-! What a fetch leaves unchanged (R77). -/

@[simp] theorem State.fetch_mem (s : State) : s.fetch.2.mem = s.mem := by simp [State.fetch]

@[simp] theorem State.fetch_run (s : State) : s.fetch.2.run = s.run := by simp [State.fetch]

@[simp] theorem State.fetch_printing (s : State) : s.fetch.2.printing = s.printing := by simp [State.fetch]

/-- Settles O22: a step from RUNNING is an instruction, which ends the run as `exec_halted_iff` and `exec_faulted_iff`
say, or a part of a string loop, which does not end it. -/
theorem runStateTransitions : Obligations.RunStateTransitions := by
  refine ⟨fun s hr => by simp [step, hr], fun s r hr => by simp [step, hr], fun s t h => ?_⟩
  obtain ⟨hrun, ⟨hp, he⟩ | ⟨f, hp, he⟩⟩ := step_next_running h
  · have hfetch : s.fetch.2.run = .running := by rw [State.fetch_run, hrun]
    simp [hrun, hp, exec_halted_iff hfetch he, exec_faulted_iff hfetch he]
  · obtain ⟨_, _, _, _, rfl⟩ := State.printString_next he
    simp [hrun, hp]

/-! ## The invariant of a run -/

/-- A running state asks nothing of how the run ended. -/
theorem EndConsistent.of_running {s : State} (h : s.run = .running) : EndConsistent s := by
  simp [EndConsistent, h]

/-- The updater never gives the fourth value of Flag (R23, R71). -/
theorem flagOf_ne_none (v : Word) : flagOf v ≠ .none := by
  rcases flagOf_cases v with h | h | h <;> simp [h]

/-- Each effect of an instruction, begun in RUNNING with no string loop going on, leads to the invariant. -/
theorem ExecEffect.inv {i : Instr} {s t : State} (h : ExecEffect i s t) (hmem : s.mem.wf) (hflag : s.flag ≠ .none)
    (hrun : s.run = .running) (hp : s.printing = none) : Inv t := by
  have hloop : ∀ u : State, u.printing = none → LoopConsistent u := fun u hu hne => absurd hu hne
  cases h with
  | dest => exact ⟨hmem, flagOf_ne_none _, .of_running hrun, hloop _ hp⟩
  | goto | call | readByte => exact ⟨hmem, hflag, .of_running hrun, hloop _ hp⟩
  | store => exact ⟨Memory.write_wf _ (BitVec.isLt _) hmem, hflag, .of_running hrun, hloop _ hp⟩
  | reserved hi =>
    refine ⟨hmem, hflag, ⟨rfl, ?_, ?_⟩, hloop _ hp⟩
    · exact encodeLow_opcode _ _
    · rcases hi with ⟨_, rfl⟩ | ⟨_, rfl⟩
      · exact .inl rfl
      · exact .inr rfl
  | print => exact ⟨hmem, hflag, .of_running hrun, fun _ => ⟨hrun, rfl⟩⟩
  | halt => exact ⟨hmem, hflag, rfl, hloop _ hp⟩
  | badVector _ hv => exact ⟨hmem, hflag, ⟨rfl, hv, rfl⟩, hloop _ hp⟩

/-- Settles O60: an instruction keeps the invariant by its effect; a part of a string loop changes none of what the
invariant speaks of but the record of the loop. -/
theorem stepKeepsInvariant : Obligations.StepKeepsInvariant := by
  intro s t ⟨hmem, hflag, _, hloop⟩ h
  obtain ⟨hrun, ⟨hp, he⟩ | ⟨f, hp, he⟩⟩ := step_next_running h
  · exact (exec_effect he).inv (by simpa using hmem) (by simpa using hflag) (by simpa using hrun) (by simpa using hp)
  · obtain ⟨_, _, _, _, rfl⟩ := State.printString_next he
    exact ⟨hmem, hflag, .of_running hrun, fun _ => hloop (by simp [hp])⟩

/-! ## The trace (R32, D11) -/

/-- The state with bytes put before its trace. -/
def State.prependOut (s : State) (bs : List Byte) : State := { s with out := bs ++ s.out }

/-- A memory read does not look at the trace. -/
theorem State.memRead_prependOut (s : State) (bs : List Byte) (a : Word) :
    (s.prependOut bs).memRead a = ((s.memRead a).1, (s.memRead a).2.prependOut bs) := by
  cases h : s.readIsDraw a with
  | true => rw [State.memRead_draw h, State.memRead_draw (s := s.prependOut bs) h]; rfl
  | false => rw [State.memRead_plain h, State.memRead_plain (s := s.prependOut bs) h]; rfl

/-- What is emitted does not depend on the trace before it. -/
theorem State.emit_prependOut (s : State) (bs es : List Byte) :
    (s.prependOut bs).emit es = (s.emit es).prependOut bs := by
  simp [State.emit, State.prependOut, List.append_assoc]

/-- A scan does not look at the trace. -/
theorem scanString_prependOut (f : StringForm) (fuel : Nat) (a : Word) (s : State) (bs : List Byte) :
    scanString f fuel a (s.prependOut bs) = (scanString f fuel a s).prependOut bs := by
  induction fuel generalizing a s with
  | zero => rfl
  | succ fuel ih =>
    have hread := s.memRead_prependOut bs a
    by_cases h : (s.memRead a).1 = 0#16
    · rw [scanString_zero h, scanString_zero (by rwa [hread]), hread]
      rfl
    · rw [scanString_nonzero h, scanString_nonzero (by rwa [hread]), hread, State.emit_prependOut, ih]

/-- `m` does not read the trace: with bytes before it, `m` goes to the same next state with those bytes before its
trace. -/
def IgnoresTrace (m : State → Host.Outcome State Fault Refusal) : Prop :=
  ∀ (s t : State) (bs : List Byte), m s = .next t → m (s.prependOut bs) = .next (t.prependOut bs)

/-- A handler that always goes on ignores the trace when its update commutes with bytes before it. -/
theorem IgnoresTrace.of_next {m : State → Host.Outcome State Fault Refusal} {g : State → State}
    (hm : ∀ s, m s = .next (g s)) (hg : ∀ s bs, g (s.prependOut bs) = (g s).prependOut bs) : IgnoresTrace m := by
  intro s t bs h
  rw [hm] at h ⊢
  cases h
  rw [hg]

/-- A load ignores the trace. -/
theorem State.loadInto_prependOut (s : State) (bs : List Byte) (dr : Reg) (ea : Word) :
    (s.prependOut bs).loadInto dr ea = (s.loadInto dr ea).prependOut bs := by
  rw [State.loadInto, State.memRead_prependOut]
  rfl

/-- `input()` does not look at the trace. -/
theorem State.nextInput_prependOut (s : State) (bs : List Byte) :
    (s.prependOut bs).nextInput = s.nextInput.map (fun p => (p.1, p.2.prependOut bs)) := by
  cases s with
  | mk regs pc flag mem run out mode input ended draws printing =>
    cases input <;> cases ended <;> rfl

/-- The end of GETC and IN ignores the trace. -/
theorem readChar_ignoresTrace (echo : Byte → List Byte) : IgnoresTrace (fun s => s.readChar echo) := by
  intro s t bs h
  simp only [State.readChar, State.nextInput_prependOut] at h ⊢
  cases hn : s.nextInput with
  | none => simp [hn] at h
  | some p =>
    rw [hn] at h
    cases h
    simp only [Option.map_some, State.emit_prependOut]
    rfl

/-- The loop of PUTS and PUTSP ignores the trace. -/
theorem printString_ignoresTrace (f : StringForm) : IgnoresTrace (fun s => s.printString f) :=
  .of_next (fun _ => rfl) (fun s bs => scanString_prependOut f s.scanBound (s.reg .r0) s bs)

/-- Both forms of PUTS write R7 and print the string (R108). -/
theorem exec_puts {i : Instr} (hi : i = .puts ∨ i = .trap 0x22) (s : State) :
    exec i s = s.trapEntry.printString .puts := by
  rcases hi with rfl | rfl <;> rfl

/-- Both forms of IN write R7, emit the prompt and read a byte with an echo (R109). -/
theorem exec_in {i : Instr} (hi : i = .inChar ∨ i = .trap 0x23) (s : State) :
    exec i s = (s.trapEntry.emit Config.inPrompt).readChar (fun b => [b]) := by
  rcases hi with rfl | rfl <;> rfl

/-- The service calls and TRAP ignore the trace: each routine begins in the state in which R7 is written. -/
theorem exec_trap_ignoresTrace {i : Instr} (hop : opcodeOfInstr i = .trap) : IgnoresTrace (exec i) := by
  intro s t bs h
  rcases exec_trap_cases i s with ⟨_, hi⟩ | ⟨_, hi⟩ | ⟨_, hi⟩ | ⟨_, hi⟩ | ⟨_, hi⟩ | ⟨_, hi⟩ | ⟨v, rfl, hv, _⟩ | hne
  · rw [exec_getc hi] at h ⊢
    exact readChar_ignoresTrace _ s.trapEntry t bs h
  · rw [exec_out hi] at h ⊢
    cases h
    exact congrArg Host.Outcome.next (s.trapEntry.emit_prependOut bs _)
  · rw [exec_puts hi] at h ⊢
    exact printString_ignoresTrace .puts s.trapEntry t bs h
  · rw [exec_in hi] at h ⊢
    have hprompt := s.trapEntry.emit_prependOut bs Config.inPrompt
    exact (congrArg (State.readChar · _) hprompt).trans (readChar_ignoresTrace _ _ t bs h)
  · rw [exec_putsp hi] at h ⊢
    exact printString_ignoresTrace .putsp s.trapEntry t bs h
  · rw [exec_halt hi] at h ⊢
    cases h
    exact congrArg (fun u : State => Host.Outcome.next u.haltRun) (s.trapEntry.emit_prependOut bs _)
  · rw [exec_trap_badVector ((serviceVector_eq_false_iff v).1 hv)] at h ⊢
    cases h
    rfl
  · exact absurd hop hne

/-- No instruction reads the trace. -/
theorem exec_ignoresTrace (i : Instr) : IgnoresTrace (exec i) := by
  cases i with
  | trap | getc | out | puts | inChar | putsp | halt => exact exec_trap_ignoresTrace rfl
  | addReg | addImm | andReg | andImm | not | lea | st | str | jsr | jsrr | jmp | ret | rti | res =>
    exact .of_next (fun _ => rfl) (fun _ _ => rfl)
  | br => exact .of_next (exec_br _ _) (fun _ _ => rfl)
  | nop => exact .of_next (g := id) (exec_nop _) (fun _ _ => rfl)
  | ld => exact .of_next (exec_ld _ _) (fun s bs => s.loadInto_prependOut bs _ _)
  | ldr => exact .of_next (exec_ldr _ _ _) (fun s bs => s.loadInto_prependOut bs _ _)
  | ldi dr off9 =>
    refine .of_next (fun _ => rfl) (fun s bs => ?_)
    rw [show (s.prependOut bs).pcOff9 off9 = s.pcOff9 off9 from rfl, State.memRead_prependOut]
    exact State.loadInto_prependOut _ bs _ _
  | sti sr off9 =>
    refine .of_next (fun _ => rfl) (fun s bs => ?_)
    rw [show (s.prependOut bs).pcOff9 off9 = s.pcOff9 off9 from rfl, State.memRead_prependOut]
    rfl

/-- Settles O55: the bytes are the trace the instruction leaves when begun with an empty one, and any trace before goes
before them. -/
theorem traceOnlyGrows : Obligations.TraceOnlyGrows := by
  intro i s t h
  have hblank : ∃ u, exec i { s with out := [] } = .next u := by
    by_contra hno
    have hwaits := (exec_no_next_iff i { s with out := [] }).1 (fun u hu => hno ⟨u, hu⟩)
    exact (exec_no_next_iff i s).2 hwaits t h
  obtain ⟨u, hu⟩ := hblank
  have hany : ∀ o : List Byte, exec i { s with out := o } = .next (u.prependOut o) := fun o => by
    have ho := exec_ignoresTrace i _ u o hu
    rwa [State.prependOut, List.append_nil] at ho
  obtain rfl := Host.Outcome.next.inj ((hany s.out).symm.trans h)
  exact ⟨u.out, rfl, hany⟩

end Sys2Proof.Machine

/-! SUPPORT and PROOFS of the family other, the state: canonical memory, memory reads and draws, reset and the image
file, the operands and the ALU, and the ports. -/

namespace Sys2Proof.Machine

/-! ## Canonical memory (log 12) -/

/-- Where the addresses rise strictly, a listed word is what its cell reads as. -/
theorem Memory.read_of_mem {m : Memory} {a : Nat} {v : Word} (hrising : m.Pairwise (fun c d => c.1 < d.1))
    (h : (a, v) ∈ m) : m.read a = v := by
  induction m with
  | nil => cases h
  | cons c m ih =>
    obtain ⟨k, u⟩ := c
    rw [List.pairwise_cons] at hrising
    rcases List.mem_cons.1 h with heq | hmem
    · obtain ⟨rfl, rfl⟩ := Prod.mk.inj heq
      exact if_pos rfl
    · exact (if_neg (hrising.1 _ hmem).ne').trans (ih hrising.2 hmem)

/-- A cell that does not read as the reset content is listed with its word. -/
theorem Memory.mem_of_read {m : Memory} {a : Nat} (h : m.read a ≠ Memory.blank) : (a, m.read a) ∈ m := by
  induction m with
  | nil => exact absurd rfl h
  | cons c m ih =>
    obtain ⟨k, u⟩ := c
    by_cases hk : a = k
    · simp [Memory.read, hk]
    · simp only [Memory.read, if_neg hk] at h ⊢
      exact List.mem_cons_of_mem _ (ih h)

/-- What canonical memory lists: the cells of the machine that do not read as the reset content, with their words. -/
theorem Memory.mem_iff_of_wf {m : Memory} (h : m.wf) (a : Nat) (v : Word) :
    (a, v) ∈ m ↔ a < 65536 ∧ v ≠ Memory.blank ∧ m.read a = v := by
  obtain ⟨hrising, hentries⟩ := h
  constructor
  · intro hmem
    obtain ⟨ha, hv⟩ := hentries _ hmem
    exact ⟨ha, hv, Memory.read_of_mem hrising hmem⟩
  · rintro ⟨_, hv, rfl⟩
    exact Memory.mem_of_read hv

/-- Canonical memories that read alike at the addresses of the machine are equal: they list the same entries in the same
order. -/
theorem Memory.eq_of_read {m m' : Memory} (h : m.wf) (h' : m'.wf)
    (hread : ∀ a : Word, m.read a.toNat = m'.read a.toNat) : m = m' := by
  have hnodup : ∀ {l : Memory}, l.wf → l.Nodup := fun hl => hl.1.imp fun hlt heq => hlt.ne (congrArg Prod.fst heq)
  have hmem : ∀ c, c ∈ m ↔ c ∈ m' := fun ⟨a, v⟩ => by
    rw [Memory.mem_iff_of_wf h, Memory.mem_iff_of_wf h']
    refine and_congr_right fun ha => ?_
    have hcell := hread (BitVec.ofNat 16 a)
    rw [BitVec.toNat_ofNat, Nat.mod_eq_of_lt ha] at hcell
    rw [hcell]
  exact ((List.perm_ext_iff_of_nodup (hnodup h) (hnodup h')).2 hmem).eq_of_pairwise
    (fun c d _ _ hcd hdc => absurd hcd hdc.asymm) h.1 h'.1

/-- Settles O7: canonical memory lists its non-blank cells in order, and a write at a word address keeps the form. -/
theorem canonicalMemoryIsItsCells : Obligations.CanonicalMemoryIsItsCells :=
  ⟨fun _ _ h h' hread => Memory.eq_of_read h h' hread, fun _ a v h => Memory.write_wf v a.isLt h⟩

/-! ## Memory reads and draws (R37, R44) -/

/-- The reserved I/O addresses as numbers. -/
theorem reservedIo_iff (a : Word) : reservedIo a = true ↔ a.toNat ∈ [0xFE00, 0xFE02, 0xFE04, 0xFE06] := by
  simp [reservedIo, ← BitVec.toNat_inj, or_assoc]

/-- Reads of the other addresses are plain in either mode. -/
theorem State.memRead_of_not_reserved {a : Word} (h : a.toNat ∉ [0xFE00, 0xFE02, 0xFE04, 0xFE06]) (s : State) :
    s.memRead a = (s.cell a, s) :=
  State.memRead_plain (by rw [State.readIsDraw, Bool.eq_false_iff.2 (mt (reservedIo_iff a).1 h), Bool.and_false])

open Classical in
/-- How many words of a sequence come before its next zero from number `n` on, if one comes. -/
noncomputable def zeroAfter (w : Nat → Word) (n : Nat) : Option Nat :=
  if h : ∃ k, w (n + k) = 0 then some (Nat.find h) else none

/-- A zero comes after `k` words exactly where it is the first. -/
theorem zeroAfter_eq_some (w : Nat → Word) (n k : Nat) :
    zeroAfter w n = some k ↔ w (n + k) = 0 ∧ ∀ j < k, w (n + j) ≠ 0 := by
  unfold zeroAfter
  split
  · rw [Option.some_inj, Nat.find_eq_iff]
  · rename_i h
    exact ⟨nofun, fun hk => absurd ⟨k, hk.1⟩ h⟩

/-- No zero comes exactly where every word is another. -/
theorem zeroAfter_eq_none (w : Nat → Word) (n : Nat) : zeroAfter w n = none ↔ ∀ k, w (n + k) ≠ 0 := by
  unfold zeroAfter
  split
  · rename_i h
    obtain ⟨k, hk⟩ := h
    exact ⟨nofun, fun hno => absurd hk (hno k)⟩
  · rename_i h
    exact ⟨fun _ k hk => h ⟨k, hk⟩, fun _ => rfl⟩

/-- With the distances to the next zero for runs, the model counts down each of them, and so gives the distance from
every number on. -/
theorem untilZeroOf_zeroAfter (w : Nat → Word) (n : Nat) : untilZeroOf (zeroAfter w) n = zeroAfter w n := by
  have hshift : ∀ n j, n + 1 + j = n + (j + 1) := fun n j => by omega
  induction n with
  | zero => rfl
  | succ n ih =>
    rw [untilZeroOf, ih]
    split
    · rfl
    · rename_i k h
      obtain ⟨hzero, hbefore⟩ := (zeroAfter_eq_some w n (k + 1)).1 h
      refine ((zeroAfter_eq_some w (n + 1) k).2 ⟨?_, fun j hj => ?_⟩).symm
      · rw [hshift]
        exact hzero
      · rw [hshift]
        exact hbefore (j + 1) (by omega)
    · rename_i h
      refine ((zeroAfter_eq_none w (n + 1)).2 fun k => ?_).symm
      rw [hshift]
      exact (zeroAfter_eq_none w n).1 h (k + 1)

/-- Every sequence of words is the draws for some runs (R44). -/
theorem mmioWordOf_zeroAfter (w : Nat → Word) (n : Nat) : mmioWordOf (zeroAfter w) w n = w n := by
  have hzero : zeroAfter w n = some 0 ↔ w n = 0#16 := by simp [zeroAfter_eq_some]
  simp only [mmioWordOf, untilZeroOf_zeroAfter, hzero]
  by_cases h : w n = 0#16 <;> simp [h]

/-- Settles O8: a read is a draw or plain, and any sequence of words is the draws for the runs of `zeroAfter`. -/
theorem memReadPlainOrDraw : Obligations.MemReadPlainOrDraw := by
  refine ⟨fun s a hplain => State.memRead_of_plain hplain a, fun s a ha => State.memRead_of_not_reserved ha s,
    fun s a hany ha => State.memRead_draw ?_, fun _ => rfl, fun w => ⟨zeroAfter w, w, mmioWordOf_zeroAfter w⟩⟩
  rw [State.readIsDraw, hany, (reservedIo_iff a).2 ha]
  rfl

/-! ## Reset (R130) -/

/-- Settles O2: each row of the table is a field of the reset state. -/
theorem firstFetchState : Obligations.FirstFetchState :=
  ⟨fun _ _ _ => ⟨fun _ => rfl, rfl, rfl, rfl⟩, fun _ => rfl, rfl, rfl, rfl, fun _ _ => rfl⟩

/-- The invariant holds in every reset state with Flag at Z (R130). -/
theorem State.resetWith_inv (entry : Word) (m : MmioReadMode) : Inv (State.resetWith .z entry m) :=
  ⟨State.resetWith_wf .z entry m, Flag.noConfusion, .of_running rfl, fun h => absurd rfl h⟩

/-- Settles O3: the defaults are one of those reset states. -/
theorem resetMeetsInvariant : Obligations.ResetMeetsInvariant :=
  ⟨State.resetWith_inv Config.entry Config.mmioReadMode, State.resetWith_inv⟩

/-! ## The image file (R131) -/

/-- Two bytes of an image make a big-endian word. -/
theorem toNat_placed_bytes (hi lo : Byte) : (placed hi 8 ||| placed lo 0).toNat = hi.toNat * 256 + lo.toNat := by
  have hhi : (placed hi 8).toNat = hi.toNat <<< 8 := by
    rw [placed, BitVec.toNat_shiftLeft, BitVec.toNat_setWidth_of_le (by omega), Nat.shiftLeft_eq]
    omega
  have hlo : (placed lo 0).toNat = lo.toNat := by
    rw [placed, BitVec.shiftLeft_zero, BitVec.toNat_setWidth_of_le (by omega)]
  rw [BitVec.toNat_or, hhi, hlo, ← Nat.shiftLeft_add_eq_or_of_lt lo.isLt, Nat.shiftLeft_eq]

/-- An image with a word past the top of memory is refused (R131, D16). -/
theorem launch_of_too_long (f : FlagReset) (m : MmioReadMode) (entry : Option Word) {image : List Byte} {A : Word}
    {ws : List Word} (himage : imageWords image = some (A :: ws)) (hlong : 65536 - A.toNat < ws.length) :
    launch f m entry image = none := by
  simp only [launch, himage, State.load, if_neg (Nat.not_le.2 hlong)]

/-- Settles O5: words are made by `toNat_placed_bytes`, a fitting image is launched with its words in memory only, and a
longer one is refused. -/
theorem imageFileAndEntry : Obligations.ImageFileAndEntry := by
  refine ⟨fun hi lo rest ws hrest => ⟨_, ?_, toNat_placed_bytes hi lo⟩, fun f m entry image A ws himage =>
    ⟨fun hfits => ⟨_, launch_of_fits f m entry himage hfits, rfl, rfl, rfl, rfl⟩,
      launch_of_too_long f m entry himage⟩⟩
  rw [imageWords, hrest]
  rfl

/-! ## Operands and the ALU (R55, R73) -/

/-- Settles O10: each operand is its field sign-extended. -/
theorem operandsAreSignedFields : Obligations.OperandsAreSignedFields := by
  simp only [Obligations.OperandsAreSignedFields, sext5_eq, sext6_eq, sext9_eq, sext11_eq]
  exact ⟨fun _ => BitVec.toInt_signExtend_of_le (by omega), fun _ => BitVec.toInt_signExtend_of_le (by omega),
    fun _ => BitVec.toInt_signExtend_of_le (by omega), fun _ => BitVec.toInt_signExtend_of_le (by omega)⟩

/-- Settles O12: the three functions are those of the words' arithmetic. -/
theorem aluFunctions : Obligations.AluFunctions := fun a b =>
  ⟨BitVec.toNat_add a b, fun _ => BitVec.getLsbD_and, BitVec.toNat_not⟩

/-! ## Ports (R18, R39, D8) -/

/-- The code of Flag stands for Flag (R24). -/
theorem flagOfCode_flagCode (f : Flag) : flagOfCode (flagCode f) = f := by
  cases f <;> rfl

/-- With every enable clear the register file writes nothing (R18). -/
theorem State.regPortsWrite_disabled {s : State} {i : RegPortsIn} (hw : i.wEn = false) (hpc : i.pcWe = false)
    (hflag : i.flagWe = false) : s.regPortsWrite i = s := by
  simp [State.regPortsWrite, hw, hpc, hflag]

/-- With its enable clear the memory unit writes nothing (R39). -/
theorem State.memPortsWrite_disabled {s : State} {i : MemPortsIn} (hw : i.wrEn = false) : s.memPortsWrite i = s := by
  simp [State.memPortsWrite, hw]

/-- A write of a register and of the code of the updater's flag, with PC's enable clear, is the write of a destination
(R18, R72). -/
theorem State.regPortsWrite_dest (s : State) (a b d : BitVec 3) (v pc : Word) :
    s.regPortsWrite ⟨a, b, true, d, v, false, pc, true, flagCode (flagOf v)⟩ = s.writeDest (regOfField d) v := by
  simp only [State.regPortsWrite, flagOfCode_flagCode]
  rfl

/-- Settles O13: the read paths are the accessors, the disabled writes change nothing, and the three instructions are
the enabled ones. -/
theorem portsAgreeWithAccessors : Obligations.PortsAgreeWithAccessors :=
  ⟨fun s _ => ⟨rfl, rfl, rfl, flagOfCode_flagCode s.flag, State.regPortsWrite_disabled⟩,
    fun _ _ => ⟨rfl, State.memPortsWrite_disabled⟩,
    fun s a b d => (congrArg Host.Outcome.next (s.regPortsWrite_dest a b d _ 0)).symm, fun _ _ => rfl,
    fun _ _ _ => rfl⟩

/-- Settles O20: the decoder runs on the fifteen words and the eight fields. -/
theorem specWordsDecode : Obligations.SpecWordsDecode := by
  unfold Obligations.SpecWordsDecode
  decide

end Sys2Proof.Machine

/-! SUPPORT and PROOFS of the family other, the strings of PUTS and PUTSP: the string of PUTS, and the loop that never
ends. -/

namespace Sys2Proof.Machine

/-! ## PUTS (R108) -/

/-- What PUTS writes for a word, in arithmetic (R108). -/
theorem stringBytes_puts (w : Word) : stringBytes .puts w = [BitVec.ofNat 8 w.toNat] := by
  rw [stringBytes, putsBytes, lowByte_eq_ofNat]

/-- Settles O44: after the write of R7 a plain string is printed in one scan, and any scan completes exactly where the
spec's loop ends. -/
theorem putsWritesString : Obligations.PutsWritesString := by
  unfold Obligations.PutsWritesString
  simp only [← stringBytes_puts]
  refine ⟨fun i s k hi hstring => ?plain, fun i s t hi hp => ?loop⟩
  case plain =>
    have hentry : StringAtR0 s.trapEntry k := hstring
    refine ⟨_, (exec_puts hi s).trans (State.printString_plain hentry _), ?_, rfl, rfl, rfl, rfl, rfl,
      s.trapEntry_serviceFrame⟩
    simp only [stringBytes_puts, ← List.map_eq_flatMap]
    rfl
  case loop =>
    rw [exec_puts hi]
    exact s.trapEntry.printString_completes_iff hp .puts

/-! ## A scan that does not end (R108, R110) -/

/-- The address of a word, counted from another. -/
theorem wordsAbove_sub (a b : Word) : wordsAbove a (b - a).toNat = b := by
  rw [wordsAbove]
  bv_omega

/-- The words a string loop may read are whole laps of memory, so after them it is at its address again. -/
theorem State.wordsAbove_scanBound (s : State) (a : Word) : wordsAbove a s.scanBound = a := by
  have hlap : ∀ k, wordsAbove a (scanCells * k) = a := fun k => by
    have hzero : BitVec.ofNat 16 (scanCells * k) = 0#16 :=
      BitVec.eq_of_toNat_eq (Nat.mul_mod_right 65536 k)
    rw [wordsAbove, hzero, BitVec.add_zero]
  unfold State.scanBound
  split
  · exact hlap 1
  · split
    · exact hlap _
    · exact hlap 1

/-- The spec's loop does not look at whether a string loop is recorded as unfinished. -/
theorem StringLoop.setPrinting {bytesOf : Word → List Byte} {a : Word} {s t : State} (h : StringLoop bytesOf a s t)
    (p : Option StringForm) : StringLoop bytesOf a (s.setPrinting p) (t.setPrinting p) := by
  induction h with
  | @stop a s hz =>
    have hread := s.memRead_setPrinting a p
    have hstop : StringLoop bytesOf a (s.setPrinting p) ((s.setPrinting p).memRead a).2 := .stop (by rwa [hread])
    rwa [hread] at hstop
  | @more a s t hnz _ ih =>
    have hread := s.memRead_setPrinting a p
    refine .more (by rwa [hread]) ?_
    rw [hread]
    exact ih

/-- Where the spec's loop, taken up where an unfinished scan stopped, ends, the loop from the scan's beginning ends. -/
theorem exists_stringLoop_of_resumed {f : StringForm} {fuel : Nat} {a : Word} {s u : State}
    (hopen : (scanString f fuel a s).printing ≠ none)
    (h : StringLoop (stringBytes f) (wordsAbove a fuel) (scanString f fuel a s) u) :
    ∃ t, StringLoop (stringBytes f) a s t := by
  induction fuel generalizing a s with
  | zero =>
    rw [wordsAbove_zero] at h
    exact ⟨_, h.setPrinting s.printing⟩
  | succ fuel ih =>
    by_cases hz : (s.memRead a).1 = 0#16
    · exact ⟨_, .stop hz⟩
    · rw [scanString_nonzero hz] at h hopen
      rw [← wordsAbove_succ] at h
      obtain ⟨t, ht⟩ := ih hopen h
      exact ⟨t, .more hz ht⟩

/-- Each word but zero is written as one byte at least. -/
theorem one_le_length_stringBytes (f : StringForm) (w : Word) : 1 ≤ (stringBytes f w).length := by
  cases f with
  | puts => simp [stringBytes_puts]
  | putsp => simp [stringBytes_putsp]

/-- An unfinished scan has written one byte at least for each word it read. -/
theorem le_length_scanString_out {f : StringForm} {fuel : Nat} {a : Word} {s : State}
    (hopen : (scanString f fuel a s).printing ≠ none) :
    s.out.length + fuel ≤ (scanString f fuel a s).out.length := by
  induction fuel generalizing a s with
  | zero => exact le_rfl
  | succ fuel ih =>
    by_cases hz : (s.memRead a).1 = 0#16
    · simp [scanString_zero hz] at hopen
    · rw [scanString_nonzero hz] at hopen ⊢
      have hrest := ih hopen
      have hword := one_le_length_stringBytes f (s.memRead a).1
      simp only [State.emit_out, State.memRead_out, List.length_append] at hrest
      omega

/-- A scan of `State.scanBound` words is left unfinished exactly where the spec's loop never ends. -/
theorem scanString_open_iff (f : StringForm) (a : Word) (s : State) :
    (scanString f s.scanBound a s).printing ≠ none ↔ ¬∃ u, StringLoop (stringBytes f) a s u :=
  not_congr ⟨exists_stringLoop_of_scanString, fun ⟨_, h⟩ => h.scanString_ends f⟩

/-- Under PLAIN a scan of `State.scanBound` words is left unfinished exactly where no cell holds zero. -/
theorem scanString_open_iff_of_plain (f : StringForm) (a : Word) {s : State} (hplain : s.mmioMode = .plain) :
    (scanString f s.scanBound a s).printing ≠ none ↔ ∀ b : Word, s.cell b ≠ 0 := by
  constructor
  · intro hopen b hb
    rw [← wordsAbove_sub a b] at hb
    exact hopen (scanString_ends_of_cell ((b - a).isLt.trans_le s.scanCells_le_scanBound)
      (by simp [State.readIsDraw, hplain]) hb)
  · rw [scanString_open_iff]
    rintro hcells ⟨u, hloop⟩
    rcases hloop.zero_cell_or_draw with ⟨b, _, hb⟩ | ⟨hany, _⟩
    · exact hcells b hb
    · simp [hplain] at hany

/-- A scan of `State.scanBound` words that is left unfinished records its routine, and the spec's loop begun again never
ends. -/
theorem scanString_open {f : StringForm} {a : Word} {s : State}
    (hopen : (scanString f s.scanBound a s).printing ≠ none) :
    (scanString f s.scanBound a s).printing = some f ∧
      ¬∃ u, StringLoop (stringBytes f) a (scanString f s.scanBound a s) u := by
  constructor
  · obtain ⟨_, _, p, hp, h⟩ := scanString_state f s.scanBound a s
    rw [h] at hopen ⊢
    exact hp.resolve_left hopen
  · rintro ⟨u, hu⟩
    have hresumed : StringLoop (stringBytes f) (wordsAbove a s.scanBound) (scanString f s.scanBound a s) u := by
      rwa [s.wordsAbove_scanBound]
    exact (scanString_open_iff f a s).1 hopen (exists_stringLoop_of_resumed hopen hresumed)

/-- A scan writes no register. -/
@[simp] theorem scanString_reg (f : StringForm) (fuel : Nat) (a : Word) (s : State) (r : Reg) :
    (scanString f fuel a s).reg r = s.reg r := by
  obtain ⟨_, _, _, _, h⟩ := scanString_state f fuel a s
  rw [h]
  rfl

/-- All four forms of the string calls write R7 and print the string of their routine (R108, R110). -/
theorem exec_printsString {i : Instr} {f : StringForm} (hi : printsString i)
    (hf : f = .puts ↔ i = .puts ∨ i = .trap 0x22) (s : State) : exec i s = s.trapEntry.printString f := by
  rcases (printsString_iff i).1 hi with hputs | hputsp
  · rw [hf.2 hputs, exec_puts hputs]
  · cases f with
    | putsp => exact exec_putsp hputsp s
    | puts => rcases hputsp with rfl | rfl <;> simp at hf

/-- A step in a string loop that never ends emits one lap at least, changes nothing else but the counter of draws, and
leaves the loop unfinished (log 11). -/
theorem step_endless {s : State} {f : StringForm} (hrun : s.run = .running) (hprint : s.printing = some f)
    (hloop : ¬∃ u, StringLoop (stringBytes f) (s.reg .r0) s u) :
    ∃ (bs : List Byte) (n : Nat), 65536 ≤ bs.length ∧ step s = .next { s with out := s.out ++ bs, draws := n } ∧
      ¬∃ u, StringLoop (stringBytes f) (s.reg .r0) { s with out := s.out ++ bs, draws := n } u := by
  have hopen := (scanString_open_iff f (s.reg .r0) s).2 hloop
  have hlength := le_length_scanString_out hopen
  obtain ⟨hform, hagain⟩ := scanString_open hopen
  obtain ⟨bs, n, p, _, hs⟩ := scanString_state f s.scanBound (s.reg .r0) s
  have hp : p = s.printing := by rw [hprint, ← hform, hs]
  rw [hp] at hs
  rw [hs] at hagain hlength
  have hlap : 65536 ≤ s.scanBound := s.scanCells_le_scanBound
  refine ⟨bs, n, ?_, ?_, hagain⟩
  · rw [List.length_append] at hlength
    omega
  · rw [step_printing hrun hprint, State.printString, hs]

/-- Settles O51: a scan is left unfinished exactly where the spec's loop never ends, and then the loop taken up again
never ends either. -/
theorem stringHangsWithoutZeroWord : Obligations.StringHangsWithoutZeroWord := by
  refine ⟨fun i f s hi hf => ⟨_, exec_printsString hi hf s, scanString_open_iff f (s.reg .r0) s.trapEntry,
    fun hplain => scanString_open_iff_of_plain f (s.reg .r0) (s := s.trapEntry) hplain, fun hopen => ?_⟩,
    fun s f => step_endless⟩
  rw [scanString_reg]
  exact scanString_open hopen

/-! ## IN (R109) -/

/-- Settles O45: after the write of R7 and the prompt the byte is the first held, or a free one; it is echoed and goes
to R0 only. -/
theorem inPromptsEchoesReads : Obligations.InPromptsEchoesReads := by
  have hbyte : ∀ b : Byte, (b.setWidth 16).toNat = b.toNat := fun b => BitVec.toNat_setWidth_of_le (by omega)
  intro i s hi
  have hframe : ServiceFrame [] s (s.trapEntry.emit Config.inPrompt) := s.trapEntry_serviceFrame
  refine ⟨fun b rest hin => ?held, fun hin hend => ?drawn⟩
  case held =>
    exact ⟨_, (exec_in hi s).trans (State.readChar_held (s := s.trapEntry.emit Config.inPrompt) hin _), hbyte b, rfl,
      rfl, rfl, rfl, rfl, rfl, hframe.writeReg_r0 _⟩
  case drawn =>
    exact ⟨_, _, (exec_in hi s).trans (State.readChar_drawn (s := s.trapEntry.emit Config.inPrompt) hin hend _),
      hbyte _, hin, rfl, rfl, hend, rfl, hframe.writeReg_r0 _⟩

end Sys2Proof.Machine

/-! SUPPORT and PROOFS of the family other, short programs: a store over the next word, and the idioms of negation,
subtraction and OR. -/

namespace Sys2Proof.Machine

/-! ## A store over the next word -/

/-- Under PLAIN a step in RUNNING, with no string loop going on, runs the instruction in the cell at PC (R77). -/
theorem step_of_plain {s : State} (hrun : s.run = .running) (hp : s.printing = none) (hplain : s.mmioMode = .plain) :
    step s = exec (decode (s.cell s.pc)) (s.setPc (s.pc + 1#16)) := by
  rw [step_running hrun hp, State.fetch_plain (by simp [State.readIsDraw, hplain])]

/-- Settles O24: the store is the step's memory write, and the next step fetches the cell it wrote. -/
theorem storeIsSeenByNextFetch : Obligations.StoreIsSeenByNextFetch := by
  intro s sr hrun hp hplain hdecode
  have hoff : (s.setPc (s.pc + 1)).pcOff9 0 = s.pc + 1 := by
    rw [State.pcOff9_eq]
    exact BitVec.add_zero _
  have hstep : step s = .next ((s.setPc (s.pc + 1)).memWrite (s.pc + 1) (s.reg sr)) := by
    rw [step_of_plain hrun hp hplain, hdecode]
    exact congrArg (fun a => Host.Outcome.next ((s.setPc (s.pc + 1)).memWrite a (s.reg sr))) hoff
  generalize ht : (s.setPc (s.pc + 1)).memWrite (s.pc + 1) (s.reg sr) = t at hstep
  have hcell : t.cell (s.pc + 1) = s.reg sr := by simp [← ht]
  have hpc : t.pc = s.pc + 1 := by simp [← ht]
  have hnext : s.pc + 1 + 1#16 = s.pc + 2 := by bv_omega
  refine ⟨t, hstep, hcell, hpc, ?_⟩
  rw [step_of_plain (by simp [← ht, hrun]) (by simp [← ht, hp]) (by simp [← ht, hplain]), hpc, hcell, hnext]

/-! ## The idioms -/

/-- NOT, then ADD #1, leaves the negated word in DR and every other register as it was. -/
theorem exec_negate (d r : Reg) (s : State) :
    ∃ s1 s2, exec (.not d r) s = .next s1 ∧ exec (.addImm d d 1) s1 = .next s2 ∧ s2.reg d = -s.reg r ∧
      ∀ q, q ≠ d → s2.reg q = s.reg q := by
  have hone : sext5 1#5 = 1#16 := rfl
  refine ⟨_, _, rfl, rfl, ?_, fun q hq => by simp [hq]⟩
  simp [alu, hone, BitVec.neg_eq_not_add]

/-- Settles O30: subtraction adds the negated word, and OR is De Morgan's law. -/
theorem negateSubtractOr : Obligations.NegateSubtractOr := by
  refine ⟨fun d r s => ?negate, fun d a b t s hta => ?subtract, fun d a b s hab => ?or⟩
  case negate =>
    obtain ⟨s1, s2, h1, h2, hneg, _⟩ := exec_negate d r s
    exact ⟨s1, s2, h1, h2, by rw [hneg, BitVec.toNat_neg]⟩
  case subtract =>
    obtain ⟨s1, s2, h1, h2, hneg, hkept⟩ := exec_negate t b s
    refine ⟨s1, s2, _, h1, h2, rfl, ?_⟩
    rw [State.writeDest_reg, if_pos rfl, hneg, hkept a hta.symm]
    exact (BitVec.sub_eq_add_neg _ _).symm
  case or =>
    refine ⟨_, _, _, _, rfl, rfl, rfl, rfl, ?_⟩
    simp [alu, hab, hab.symm, BitVec.not_and]

end Sys2Proof.Machine
